-- ==== Sys2Proof/Word.lean ====
section
/-! DEFINITION. The core's data types: 32-bit patterns, bytes, register numbers and text. -/

namespace Sys2Proof

/-- A 32-bit pattern: every register value, address and extended immediate (R9). -/
abbrev Word := BitVec 32

/-- One byte of memory (R29). -/
abbrev Byte := BitVec 8

/-- A register number 0..31 (R14). -/
abbrev Reg := Fin 32

/-- A character string (R13, R25). -/
abbrev Text := List Char

end Sys2Proof
end

