-- ==== Sys2Proof/WellFormed.lean ====
section
/-! DEFINITION. When an instruction has an encoding: its immediate is in the range of its format (R58 to R62, R74), and a
system word that is not ECALL or EBREAK is not one of those two words (R70). -/

namespace Sys2Proof

/-- An I-type or S-type immediate: `-2048 .. 2047` (R58, R59). -/
abbrev immOk12 (imm : Word) : Prop := -2048 ≤ imm.toInt ∧ imm.toInt ≤ 2047

/-- A B-type immediate: even, `-4096 .. 4094` (R60). -/
abbrev immOkB (imm : Word) : Prop := -4096 ≤ imm.toInt ∧ imm.toInt ≤ 4094 ∧ imm.toInt % 2 = 0

/-- A J-type immediate: even, `-1048576 .. 1048574` (R62). -/
abbrev immOkJ (imm : Word) : Prop := -1048576 ≤ imm.toInt ∧ imm.toInt ≤ 1048574 ∧ imm.toInt % 2 = 0

/-- A U-type immediate: the low 12 bits are zero (R61). -/
abbrev immOkU (imm : Word) : Prop := imm.toNat % 4096 = 0

/-- `w[31:7]` of a system word that is neither ECALL (`0x00000073`) nor EBREAK (`0x00100073`) (R70). -/
abbrev systemBitsOk (bits : BitVec 25) : Prop := bits ≠ 0 ∧ bits ≠ 0x2000

/-- The instruction has an encoding. Register numbers and shift amounts are in range by their types. -/
def Instr.wf : Instr → Bool
  | .add _ _ _ | .sub _ _ _ | .sll _ _ _ | .slt _ _ _ | .sltu _ _ _ | .xor _ _ _ | .srl _ _ _ | .sra _ _ _
  | .or _ _ _ | .and _ _ _ | .slli _ _ _ | .srli _ _ _ | .srai _ _ _ | .ecall | .fence _ | .ebreak => true
  | .addi _ _ imm | .slti _ _ imm | .sltiu _ _ imm | .xori _ _ imm | .ori _ _ imm | .andi _ _ imm => decide (immOk12 imm)
  | .lb _ _ imm | .lh _ _ imm | .lw _ _ imm | .lbu _ _ imm | .lhu _ _ imm => decide (immOk12 imm)
  | .sb _ _ imm | .sh _ _ imm | .sw _ _ imm | .jalr _ _ imm => decide (immOk12 imm)
  | .beq _ _ imm | .bne _ _ imm | .blt _ _ imm | .bge _ _ imm | .bltu _ _ imm | .bgeu _ _ imm => decide (immOkB imm)
  | .jal _ imm => decide (immOkJ imm)
  | .lui _ imm | .auipc _ imm => decide (immOkU imm)
  | .systemOther bits => decide (systemBitsOk bits)

end Sys2Proof
end

