-- ==== Sys2Proof/Decode.lean ====
section
/-! DEFINITION. The decoder (R50 to R71): fields, immediates, the dispatch on opcode, funct3 and funct7; then the encoder,
written from the same format tables; the opcode table; and the layout of a word's bytes. -/

namespace Sys2Proof

/-! ## Placing fields (R8) -/

/-- A word whose bits from `lo` up are `v`'s and whose other bits are 0. -/
def placeAt {n : Nat} (lo : Nat) (v : BitVec n) : Word := v.setWidth 32 <<< lo

/-- The word of 4 bytes, the first least significant (R34, R36). -/
def littleEndian (b0 b1 b2 b3 : Byte) : Word := placeAt 0 b0 ||| placeAt 8 b1 ||| placeAt 16 b2 ||| placeAt 24 b3

/-! ## Fields (R51) -/

/-- `w[6:0]` -/
def opcodeOf (w : Word) : BitVec 7 := w.extractLsb' 0 7
/-- `w[11:7]` -/
def rdOf (w : Word) : Reg := (w.extractLsb' 7 5).toFin
/-- `w[14:12]` -/
def funct3Of (w : Word) : BitVec 3 := w.extractLsb' 12 3
/-- `w[19:15]` -/
def rs1Of (w : Word) : Reg := (w.extractLsb' 15 5).toFin
/-- `w[24:20]` -/
def rs2Of (w : Word) : Reg := (w.extractLsb' 20 5).toFin
/-- `w[31:25]` -/
def funct7Of (w : Word) : BitVec 7 := w.extractLsb' 25 7
/-- `w[24:20]` as a shift amount (R63) -/
def shamtOf (w : Word) : BitVec 5 := w.extractLsb' 20 5
/-- `w[31:7]`, all a word holds beside its opcode -/
def upperBitsOf (w : Word) : BitVec 25 := w.extractLsb' 7 25

/-! ## Immediates (R58 to R62) -/

/-- R58 -/
def immI (w : Word) : Word := (w.extractLsb' 20 12).signExtend 32
/-- R59 -/
def immS (w : Word) : Word := (w.extractLsb' 25 7 ++ w.extractLsb' 7 5).signExtend 32
/-- R60 -/
def immB (w : Word) : Word :=
  (w.extractLsb' 31 1 ++ w.extractLsb' 7 1 ++ w.extractLsb' 25 6 ++ w.extractLsb' 8 4 ++ (0 : BitVec 1)).signExtend 32
/-- R61 -/
def immU (w : Word) : Word := placeAt 12 (w.extractLsb' 12 20)
/-- R62 -/
def immJ (w : Word) : Word :=
  (w.extractLsb' 31 1 ++ w.extractLsb' 12 8 ++ w.extractLsb' 20 1 ++ w.extractLsb' 21 10 ++ (0 : BitVec 1)).signExtend 32

/-! ## The decoder (R64 to R71) -/

/-- Why a word or a byte string is no instruction. Every reason but `truncated` is R64's `Illegal`. -/
inductive Reject where
  /-- fewer than the 4 bytes of an instruction (R50) -/
  | truncated
  /-- the opcode is in no row of R65; every word with `w[1:0] != 0b11` is one of these (R50, R70) -/
  | opcode
  /-- the opcode's function fields are in no row of R66 to R69 -/
  | functionField
  deriving DecidableEq, Repr

/-- Opcode 0x33 (R66). -/
def decodeRegisterAlu (w : Word) : Except Reject Instr :=
  match funct7Of w, funct3Of w with
  | 0b0000000#7, 0b000#3 => .ok (.add (rdOf w) (rs1Of w) (rs2Of w))
  | 0b0100000#7, 0b000#3 => .ok (.sub (rdOf w) (rs1Of w) (rs2Of w))
  | 0b0000000#7, 0b001#3 => .ok (.sll (rdOf w) (rs1Of w) (rs2Of w))
  | 0b0000000#7, 0b010#3 => .ok (.slt (rdOf w) (rs1Of w) (rs2Of w))
  | 0b0000000#7, 0b011#3 => .ok (.sltu (rdOf w) (rs1Of w) (rs2Of w))
  | 0b0000000#7, 0b100#3 => .ok (.xor (rdOf w) (rs1Of w) (rs2Of w))
  | 0b0000000#7, 0b101#3 => .ok (.srl (rdOf w) (rs1Of w) (rs2Of w))
  | 0b0100000#7, 0b101#3 => .ok (.sra (rdOf w) (rs1Of w) (rs2Of w))
  | 0b0000000#7, 0b110#3 => .ok (.or (rdOf w) (rs1Of w) (rs2Of w))
  | 0b0000000#7, 0b111#3 => .ok (.and (rdOf w) (rs1Of w) (rs2Of w))
  | _, _ => .error .functionField

/-- The shifts of opcode 0x13 (R67): keyed by funct3 and all of `w[31:25]`. -/
def decodeShiftImmediate (w : Word) : Except Reject Instr :=
  match funct7Of w, funct3Of w with
  | 0b0000000#7, 0b001#3 => .ok (.slli (rdOf w) (rs1Of w) (shamtOf w))
  | 0b0000000#7, 0b101#3 => .ok (.srli (rdOf w) (rs1Of w) (shamtOf w))
  | 0b0100000#7, 0b101#3 => .ok (.srai (rdOf w) (rs1Of w) (shamtOf w))
  | _, _ => .error .functionField

/-- Opcode 0x13 (R67). -/
def decodeImmediateAlu (w : Word) : Except Reject Instr :=
  match funct3Of w with
  | 0b000#3 => .ok (.addi (rdOf w) (rs1Of w) (immI w))
  | 0b010#3 => .ok (.slti (rdOf w) (rs1Of w) (immI w))
  | 0b011#3 => .ok (.sltiu (rdOf w) (rs1Of w) (immI w))
  | 0b100#3 => .ok (.xori (rdOf w) (rs1Of w) (immI w))
  | 0b110#3 => .ok (.ori (rdOf w) (rs1Of w) (immI w))
  | 0b111#3 => .ok (.andi (rdOf w) (rs1Of w) (immI w))
  | _ => decodeShiftImmediate w

/-- Opcode 0x03 (R68). -/
def decodeLoad (w : Word) : Except Reject Instr :=
  match funct3Of w with
  | 0b000#3 => .ok (.lb (rdOf w) (rs1Of w) (immI w))
  | 0b001#3 => .ok (.lh (rdOf w) (rs1Of w) (immI w))
  | 0b010#3 => .ok (.lw (rdOf w) (rs1Of w) (immI w))
  | 0b100#3 => .ok (.lbu (rdOf w) (rs1Of w) (immI w))
  | 0b101#3 => .ok (.lhu (rdOf w) (rs1Of w) (immI w))
  | _ => .error .functionField

/-- Opcode 0x23 (R68). -/
def decodeStore (w : Word) : Except Reject Instr :=
  match funct3Of w with
  | 0b000#3 => .ok (.sb (rs1Of w) (rs2Of w) (immS w))
  | 0b001#3 => .ok (.sh (rs1Of w) (rs2Of w) (immS w))
  | 0b010#3 => .ok (.sw (rs1Of w) (rs2Of w) (immS w))
  | _ => .error .functionField

/-- Opcode 0x63 (R69). -/
def decodeBranch (w : Word) : Except Reject Instr :=
  match funct3Of w with
  | 0b000#3 => .ok (.beq (rs1Of w) (rs2Of w) (immB w))
  | 0b001#3 => .ok (.bne (rs1Of w) (rs2Of w) (immB w))
  | 0b100#3 => .ok (.blt (rs1Of w) (rs2Of w) (immB w))
  | 0b101#3 => .ok (.bge (rs1Of w) (rs2Of w) (immB w))
  | 0b110#3 => .ok (.bltu (rs1Of w) (rs2Of w) (immB w))
  | 0b111#3 => .ok (.bgeu (rs1Of w) (rs2Of w) (immB w))
  | _ => .error .functionField

/-- Opcode 0x67 (R69). -/
def decodeJalr (w : Word) : Except Reject Instr :=
  match funct3Of w with
  | 0b000#3 => .ok (.jalr (rdOf w) (rs1Of w) (immI w))
  | _ => .error .functionField

/-- Opcode 0x73 (R70): ECALL and EBREAK are single words; every other word is the table's third row. -/
def decodeSystem (w : Word) : Instr :=
  if upperBitsOf w = 0 then .ecall else if upperBitsOf w = 0x2000 then .ebreak else .systemOther (upperBitsOf w)

/-- The decoder over every row of spec/opcode_table.json: first-level dispatch of R65, with the rows that are not
admitted given their own constructors (log 7). -/
def decode (w : Word) : Except Reject Instr :=
  match opcodeOf w with
  | 0x33#7 => decodeRegisterAlu w
  | 0x13#7 => decodeImmediateAlu w
  | 0x03#7 => decodeLoad w
  | 0x23#7 => decodeStore w
  | 0x73#7 => .ok (decodeSystem w)
  | 0x63#7 => decodeBranch w
  | 0x67#7 => decodeJalr w
  | 0x6F#7 => .ok (.jal (rdOf w) (immJ w))
  | 0x37#7 => .ok (.lui (rdOf w) (immU w))
  | 0x17#7 => .ok (.auipc (rdOf w) (immU w))
  | 0x0F#7 => .ok (.fence (upperBitsOf w))
  | _ => .error .opcode

/-- The `Decode` of R64: one of the 38 admitted instructions, or `none` for `Illegal`. -/
def decodeAdmitted (w : Word) : Option Instr :=
  match decode w with
  | .ok i => if i.admitted then some i else none
  | .error _ => none

/-! ## The encoder -/

/-- A register number as its 5-bit field. -/
def regBits (r : Reg) : BitVec 5 := .ofFin r

/-- R-type (R52); the shift immediates use it with `shamt` in the `rs2` field (R53). -/
def encodeR (funct7 : BitVec 7) (rs2 : BitVec 5) (rs1 : Reg) (funct3 : BitVec 3) (rd : Reg) (opcode : BitVec 7) : Word :=
  placeAt 25 funct7 ||| placeAt 20 rs2 ||| placeAt 15 (regBits rs1) ||| placeAt 12 funct3 ||| placeAt 7 (regBits rd) |||
    placeAt 0 opcode

/-- I-type (R53). -/
def encodeI (imm : Word) (rs1 : Reg) (funct3 : BitVec 3) (rd : Reg) (opcode : BitVec 7) : Word :=
  placeAt 20 (imm.extractLsb' 0 12) ||| placeAt 15 (regBits rs1) ||| placeAt 12 funct3 ||| placeAt 7 (regBits rd) |||
    placeAt 0 opcode

/-- S-type (R54). -/
def encodeS (imm : Word) (rs2 rs1 : Reg) (funct3 : BitVec 3) (opcode : BitVec 7) : Word :=
  placeAt 25 (imm.extractLsb' 5 7) ||| placeAt 20 (regBits rs2) ||| placeAt 15 (regBits rs1) ||| placeAt 12 funct3 |||
    placeAt 7 (imm.extractLsb' 0 5) ||| placeAt 0 opcode

/-- B-type (R55). -/
def encodeB (imm : Word) (rs2 rs1 : Reg) (funct3 : BitVec 3) (opcode : BitVec 7) : Word :=
  placeAt 31 (imm.extractLsb' 12 1) ||| placeAt 25 (imm.extractLsb' 5 6) ||| placeAt 20 (regBits rs2) |||
    placeAt 15 (regBits rs1) ||| placeAt 12 funct3 ||| placeAt 8 (imm.extractLsb' 1 4) |||
    placeAt 7 (imm.extractLsb' 11 1) ||| placeAt 0 opcode

/-- U-type (R56). -/
def encodeU (imm : Word) (rd : Reg) (opcode : BitVec 7) : Word :=
  placeAt 12 (imm.extractLsb' 12 20) ||| placeAt 7 (regBits rd) ||| placeAt 0 opcode

/-- J-type (R57). -/
def encodeJ (imm : Word) (rd : Reg) (opcode : BitVec 7) : Word :=
  placeAt 31 (imm.extractLsb' 20 1) ||| placeAt 21 (imm.extractLsb' 1 10) ||| placeAt 20 (imm.extractLsb' 11 1) |||
    placeAt 12 (imm.extractLsb' 12 8) ||| placeAt 7 (regBits rd) ||| placeAt 0 opcode

/-- A word that is its opcode and 25 uninterpreted bits. -/
def encodeRaw (bits : BitVec 25) (opcode : BitVec 7) : Word := placeAt 7 bits ||| placeAt 0 opcode

/-- The word of an instruction (R52 to R57, with the function fields of R65 to R70). -/
def encode : Instr → Word
  | .add rd rs1 rs2 => encodeR 0b0000000 (regBits rs2) rs1 0b000 rd 0x33
  | .sub rd rs1 rs2 => encodeR 0b0100000 (regBits rs2) rs1 0b000 rd 0x33
  | .sll rd rs1 rs2 => encodeR 0b0000000 (regBits rs2) rs1 0b001 rd 0x33
  | .slt rd rs1 rs2 => encodeR 0b0000000 (regBits rs2) rs1 0b010 rd 0x33
  | .sltu rd rs1 rs2 => encodeR 0b0000000 (regBits rs2) rs1 0b011 rd 0x33
  | .xor rd rs1 rs2 => encodeR 0b0000000 (regBits rs2) rs1 0b100 rd 0x33
  | .srl rd rs1 rs2 => encodeR 0b0000000 (regBits rs2) rs1 0b101 rd 0x33
  | .sra rd rs1 rs2 => encodeR 0b0100000 (regBits rs2) rs1 0b101 rd 0x33
  | .or rd rs1 rs2 => encodeR 0b0000000 (regBits rs2) rs1 0b110 rd 0x33
  | .and rd rs1 rs2 => encodeR 0b0000000 (regBits rs2) rs1 0b111 rd 0x33
  | .addi rd rs1 imm => encodeI imm rs1 0b000 rd 0x13
  | .slti rd rs1 imm => encodeI imm rs1 0b010 rd 0x13
  | .sltiu rd rs1 imm => encodeI imm rs1 0b011 rd 0x13
  | .xori rd rs1 imm => encodeI imm rs1 0b100 rd 0x13
  | .ori rd rs1 imm => encodeI imm rs1 0b110 rd 0x13
  | .andi rd rs1 imm => encodeI imm rs1 0b111 rd 0x13
  | .slli rd rs1 shamt => encodeR 0b0000000 shamt rs1 0b001 rd 0x13
  | .srli rd rs1 shamt => encodeR 0b0000000 shamt rs1 0b101 rd 0x13
  | .srai rd rs1 shamt => encodeR 0b0100000 shamt rs1 0b101 rd 0x13
  | .lb rd rs1 imm => encodeI imm rs1 0b000 rd 0x03
  | .lh rd rs1 imm => encodeI imm rs1 0b001 rd 0x03
  | .lw rd rs1 imm => encodeI imm rs1 0b010 rd 0x03
  | .lbu rd rs1 imm => encodeI imm rs1 0b100 rd 0x03
  | .lhu rd rs1 imm => encodeI imm rs1 0b101 rd 0x03
  | .sb rs1 rs2 imm => encodeS imm rs2 rs1 0b000 0x23
  | .sh rs1 rs2 imm => encodeS imm rs2 rs1 0b001 0x23
  | .sw rs1 rs2 imm => encodeS imm rs2 rs1 0b010 0x23
  | .ecall => encodeRaw 0 0x73
  | .jal rd imm => encodeJ imm rd 0x6F
  | .jalr rd rs1 imm => encodeI imm rs1 0b000 rd 0x67
  | .beq rs1 rs2 imm => encodeB imm rs2 rs1 0b000 0x63
  | .bne rs1 rs2 imm => encodeB imm rs2 rs1 0b001 0x63
  | .blt rs1 rs2 imm => encodeB imm rs2 rs1 0b100 0x63
  | .bge rs1 rs2 imm => encodeB imm rs2 rs1 0b101 0x63
  | .bltu rs1 rs2 imm => encodeB imm rs2 rs1 0b110 0x63
  | .bgeu rs1 rs2 imm => encodeB imm rs2 rs1 0b111 0x63
  | .lui rd imm => encodeU imm rd 0x37
  | .auipc rd imm => encodeU imm rd 0x17
  | .fence bits => encodeRaw bits 0x0F
  | .ebreak => encodeRaw 0x2000 0x73
  | .systemOther bits => encodeRaw bits 0x73

/-! ## The opcode table (R64) -/

/-- A row of spec/opcode_table.json: a word `w` is the row's when `(w & mask) = pattern`. -/
structure TableRow where
  op : Op
  pattern : Word
  mask : Word
  deriving DecidableEq, Repr

/-- Whether a word is a row's. -/
def TableRow.covers (r : TableRow) (w : Word) : Bool := w &&& r.mask == r.pattern

/-- The row of spec/opcode_table.json for each operation: its match and mask, as the table gives them. -/
def Op.row : Op → TableRow
  | .add => ⟨.add, 0x00000033, 0xFE00707F⟩
  | .sub => ⟨.sub, 0x40000033, 0xFE00707F⟩
  | .sll => ⟨.sll, 0x00001033, 0xFE00707F⟩
  | .slt => ⟨.slt, 0x00002033, 0xFE00707F⟩
  | .sltu => ⟨.sltu, 0x00003033, 0xFE00707F⟩
  | .xor => ⟨.xor, 0x00004033, 0xFE00707F⟩
  | .srl => ⟨.srl, 0x00005033, 0xFE00707F⟩
  | .sra => ⟨.sra, 0x40005033, 0xFE00707F⟩
  | .or => ⟨.or, 0x00006033, 0xFE00707F⟩
  | .and => ⟨.and, 0x00007033, 0xFE00707F⟩
  | .addi => ⟨.addi, 0x00000013, 0x0000707F⟩
  | .slti => ⟨.slti, 0x00002013, 0x0000707F⟩
  | .sltiu => ⟨.sltiu, 0x00003013, 0x0000707F⟩
  | .xori => ⟨.xori, 0x00004013, 0x0000707F⟩
  | .ori => ⟨.ori, 0x00006013, 0x0000707F⟩
  | .andi => ⟨.andi, 0x00007013, 0x0000707F⟩
  | .slli => ⟨.slli, 0x00001013, 0xFE00707F⟩
  | .srli => ⟨.srli, 0x00005013, 0xFE00707F⟩
  | .srai => ⟨.srai, 0x40005013, 0xFE00707F⟩
  | .lb => ⟨.lb, 0x00000003, 0x0000707F⟩
  | .lh => ⟨.lh, 0x00001003, 0x0000707F⟩
  | .lw => ⟨.lw, 0x00002003, 0x0000707F⟩
  | .lbu => ⟨.lbu, 0x00004003, 0x0000707F⟩
  | .lhu => ⟨.lhu, 0x00005003, 0x0000707F⟩
  | .sb => ⟨.sb, 0x00000023, 0x0000707F⟩
  | .sh => ⟨.sh, 0x00001023, 0x0000707F⟩
  | .sw => ⟨.sw, 0x00002023, 0x0000707F⟩
  | .ecall => ⟨.ecall, 0x00000073, 0xFFFFFFFF⟩
  | .jal => ⟨.jal, 0x0000006F, 0x0000007F⟩
  | .jalr => ⟨.jalr, 0x00000067, 0x0000707F⟩
  | .beq => ⟨.beq, 0x00000063, 0x0000707F⟩
  | .bne => ⟨.bne, 0x00001063, 0x0000707F⟩
  | .blt => ⟨.blt, 0x00004063, 0x0000707F⟩
  | .bge => ⟨.bge, 0x00005063, 0x0000707F⟩
  | .bltu => ⟨.bltu, 0x00006063, 0x0000707F⟩
  | .bgeu => ⟨.bgeu, 0x00007063, 0x0000707F⟩
  | .lui => ⟨.lui, 0x00000037, 0x0000007F⟩
  | .auipc => ⟨.auipc, 0x00000017, 0x0000007F⟩
  | .fence => ⟨.fence, 0x0000000F, 0x0000007F⟩
  | .ebreak => ⟨.ebreak, 0x00100073, 0xFFFFFFFF⟩
  | .systemOther => ⟨.systemOther, 0x00000073, 0x0000007F⟩

/-- The register ALU operations of R2. -/
def registerAluOps : List Op := [.add, .sub, .sll, .slt, .sltu, .xor, .srl, .sra, .or, .and]
/-- The immediate ALU operations of R2. -/
def immediateAluOps : List Op := [.addi, .slti, .sltiu, .xori, .ori, .andi, .slli, .srli, .srai]
/-- The loads, stores and the system operation of R2. -/
def memoryAndSystemOps : List Op := [.lb, .lh, .lw, .lbu, .lhu, .sb, .sh, .sw, .ecall]
/-- The control transfers and upper-immediate operations of R2. -/
def transferAndUpperOps : List Op := [.beq, .bne, .blt, .bge, .bltu, .bgeu, .jal, .jalr, .lui, .auipc]

/-- The 38 operations of R2. -/
def admittedOps : List Op := List.flatten [registerAluOps, immediateAluOps, memoryAndSystemOps, transferAndUpperOps]

/-- The rows of the 38 admitted instructions. -/
def admittedRows : List TableRow := admittedOps.map Op.row

/-! ## Bytes (R36, R50) -/

/-- The 4 bytes of a word as memory holds them, lowest address first. -/
def wordBytes (w : Word) : List Byte := [w.extractLsb' 0 8, w.extractLsb' 8 8, w.extractLsb' 16 8, w.extractLsb' 24 8]

/-- The instruction at the head of a byte string. -/
def decodeBytes : List Byte → Except Reject Instr
  | b0 :: b1 :: b2 :: b3 :: _ => decode (littleEndian b0 b1 b2 b3)
  | _ => .error .truncated

/-- The word of an opcode-table row of `nbits` bits: every bit above them is zero. -/
def tableWord (nbits w : Nat) : Word := BitVec.ofNat 32 (w % 2 ^ nbits)

/-- The instruction the decoder reads from the bytes of a table word. -/
def decodeTableWord (nbits w : Nat) : Option Instr :=
  match decodeBytes (wordBytes (tableWord nbits w)) with
  | .ok i => some i
  | .error _ => none

end Sys2Proof
end

