-- ==== Sys2Proof/Machine/Cause.lean ====
section
/-! DEFINITION. The causes of a trap and the fault record (R24, R140, R141). -/

namespace Sys2Proof.Machine

/-- The causes of R141, each with the `info` its record carries. -/
inductive Cause where
  /-- fetch with `pc[1:0] != 0` (R143) -/
  | instructionAddressMisaligned (addr : Word)
  /-- fetch not in bounds (R144) -/
  | instructionAccessFault (addr : Word)
  /-- a word the decoder maps to Illegal (R142) -/
  | illegalInstruction (word : Word)
  /-- a misaligned load, under `MISALIGNED_DATA = fault` only (R147) -/
  | loadAddressMisaligned (addr : Word)
  /-- a load or a syscall 4 string read not in bounds (R145) -/
  | loadAccessFault (addr : Word)
  /-- a misaligned store, under `MISALIGNED_DATA = fault` only (R147) -/
  | storeAddressMisaligned (addr : Word)
  /-- a store not in bounds (R146) -/
  | storeAccessFault (addr : Word)
  /-- ECALL with `a7` not in 1, 4, 10, 11 (R148) -/
  | unsupportedSyscall (n : Word)
  deriving DecidableEq, Repr

/-- The numeric code of a cause (R141). -/
def Cause.code : Cause → Nat
  | .instructionAddressMisaligned _ => 0
  | .instructionAccessFault _ => 1
  | .illegalInstruction _ => 2
  | .loadAddressMisaligned _ => 4
  | .loadAccessFault _ => 5
  | .storeAddressMisaligned _ => 6
  | .storeAccessFault _ => 7
  | .unsupportedSyscall _ => 24

/-- The fault record of R24 and R140. -/
structure TrapRecord where
  /-- the cause, with its `info` -/
  cause : Cause
  /-- the address of the faulting instruction, or the fetch address for a fault at fetch -/
  ipc : Word
  /-- the instruction word, when it was fetched -/
  word : Option Word
  deriving DecidableEq, Repr

end Sys2Proof.Machine
end

