-- ==== Sys2Proof/Config.lean ====
section
/-! DEFINITION. The parameters of the hardware (R7): the numeric ones and the alignment option as plain data, the two
open text functions as constants without a body. -/

namespace Sys2Proof

/-- The parameter `MISALIGNED_DATA` (R38, 92_eei_decisions.md D8). -/
inductive MisalignedData where
  /-- a misaligned access reads or writes its consecutive bytes: the spec's decided value -/
  | bytewise
  /-- a misaligned access of more than one byte raises a fault: the spec's named option -/
  | fault
  deriving DecidableEq, Repr

/-- The parameters a model takes as arguments (R7). -/
structure Config where
  /-- `MEM_SIZE`, in bytes (D12) -/
  memSize : Nat
  /-- `TEXT_BASE` (D13) -/
  textBase : Nat
  /-- `DATA_BASE` (D13) -/
  dataBase : Nat
  /-- `STACK_TOP`, the stack pointer after `load` (D13, D14) -/
  stackTop : Nat
  /-- `MISALIGNED_DATA` (D8) -/
  misalignedData : MisalignedData
  deriving DecidableEq, Repr

/-- The constraints R7 makes a model impose on the open parameters. -/
abbrev Config.wf (c : Config) : Prop :=
  4 ≤ c.memSize ∧ c.memSize ≤ 2 ^ 32 ∧ c.textBase < c.memSize ∧ c.dataBase < c.memSize ∧ c.stackTop + 4 ≤ c.memSize

/-- R7's example configuration, the one of every vector of 95_test_vectors.md.
DESIGN CHOICE (log 2): the source gives no values; `State.reset` carries these, no statement about all states does. -/
def Config.example : Config where
  memSize := 0x00400000
  textBase := 0x00000000
  dataBase := 0x00100000
  stackTop := 0x003FFFF0
  misalignedData := .bytewise

/-- `CHAR_OUT(v)`, the text printed for a character code outside 0..127 (D18). A free value: it has no body (log 3). -/
opaque Config.charOut : Word → Text

/-- The first character of `DIAG(fault)` (R152: the text is non-empty). A free value: it has no body (log 4). -/
opaque Config.diagHead : Machine.TrapRecord → Char

/-- The rest of `DIAG(fault)` (R152). A free value: it has no body (log 4). -/
opaque Config.diagTail : Machine.TrapRecord → Text

/-- `DIAG(fault)`, the diagnostic appended to the output when a run traps (R152, D19): any non-empty text. -/
def Config.diag (r : Machine.TrapRecord) : Text := diagHead r :: diagTail r

end Sys2Proof
end

