-- ==== Sys2Proof/Machine/State.lean ====
section
/-! DEFINITION. The architectural state of the core (R13), its value after reset (R30, R163), and the reasons a step of
the model can stop. -/

namespace Sys2Proof.Machine

/-- The memory buffer `Mem[0 .. MEM_SIZE-1]` (R29) as the list of its non-zero bytes, addresses strictly rising: an
address that is not listed holds 0, as `reset` leaves every byte (R163). -/
abbrev Memory := List Host.Cell

/-- The run states of R23. -/
inductive RunState where
  /-- no program; no step is possible -/
  | unloaded
  /-- a program is in memory, no step has run -/
  | loaded
  /-- at least one step has run and the run has not ended -/
  | running
  /-- syscall 10 executed; final -/
  | halted
  /-- a fault ended the run; final -/
  | trapped
  /-- the last `run` command reached its ceiling -/
  | limitExceeded
  deriving DecidableEq, Repr

/-- The state of R13, with the machine's parameters beside it. -/
structure State where
  /-- the parameters of R7: the MODEL's own field, which no step changes (log 1) -/
  cfg : Config
  /-- the storage cells `X[0..31]` (R12, R14); reads go through `State.readReg` -/
  regs : Vector Word 32
  /-- the program counter (R19) -/
  pc : Word
  /-- the memory buffer (R29) -/
  mem : Memory
  /-- the run state (R23) -/
  run : RunState
  /-- the record of the fault that ended the run, empty except in `trapped` (R24) -/
  fault : Option TrapRecord
  /-- the output stream, one entry a fragment, oldest first (R25, R87; log 5) -/
  out : List Text
  deriving DecidableEq, Repr

/-- The state after `reset` (R30, R163) of a core with the parameters `c`. -/
def State.resetWith (c : Config) : State where
  cfg := c
  regs := Vector.replicate 32 0
  pc := 0
  mem := []
  run := .unloaded
  fault := none
  out := []

/-- The state after `reset`, with the spec's example configuration (log 2). -/
def State.reset : State := State.resetWith Config.example

/-- The output stream as R13's one character string. -/
def State.outText (s : State) : Text := s.out.flatten

/-- Why a step of the model stops without a next state. Every fault of the spec is a next state instead: it sets
`run` to `trapped` (R140). -/
inductive Fault where
  /-- Raised by ECALL's syscall 4 when `MEM_SIZE + 1` addresses hold neither a zero byte nor an out-of-bounds address: the
  memory is 2^32 non-zero bytes and the loop of R123 has no end. Safe: R123 derives that no step meets it (log 8). -/
  | stringScanEndless
  deriving DecidableEq, Repr

/-- Why the model gives an instruction no meaning. -/
inductive Refusal where
  /-- Raised by `exec` for an instruction without a meaning; no arm of this model raises it. Safe. -/
  | notModelled (mnemonic : String)
  deriving DecidableEq, Repr

/-- The outcome of a meaning or a step. -/
abbrev Outcome := Host.Outcome State Fault Refusal

end Sys2Proof.Machine
end

