-- ==== Sys2Proof/Machine/Memory.lean ====
section
/-! DEFINITION. The memory buffer as a list of cells: reading and writing one byte, and its canonical form. -/

namespace Sys2Proof.Machine

/-- The byte at an address; an unlisted address holds 0, the reset contents (R163). -/
def Memory.read : Memory → Nat → Byte
  | [], _ => 0
  | (b, v) :: m, a => if a = b then v else Memory.read m a

/-- The memory without an address: that byte is 0. -/
def Memory.clear (m : Memory) (a : Nat) : Memory := m.filter fun c => c.1 ≠ a

/-- Put a cell at its place in the order of addresses. -/
def Memory.place : Memory → Nat → Byte → Memory
  | [], a, v => [(a, v)]
  | (b, w) :: m, a, v => if a < b then (a, v) :: (b, w) :: m else (b, w) :: Memory.place m a v

/-- Write the byte at an address, keeping the canonical form. -/
def Memory.write (m : Memory) (a : Nat) (v : Byte) : Memory :=
  if v = 0 then Memory.clear m a else Memory.place (Memory.clear m a) a v

/-- The canonical form: addresses strictly rising, no zero byte listed. -/
abbrev Memory.wf (m : Memory) : Prop := m.Pairwise (fun c d => c.1 < d.1) ∧ ∀ c ∈ m, c.2 ≠ 0

/-- Every listed address is in the buffer of `size` bytes (R29). -/
abbrev Memory.within (size : Nat) (m : Memory) : Prop := ∀ c ∈ m, c.1 < size

end Sys2Proof.Machine
end

