-- ==== Sys2Proof/Machine/Ops.lean ====
section
/-! DEFINITION. The shared operations of R12: registers, the program counter, memory access with its checks, the output
stream, halting, and raising a fault. There is no return from a trap (R154). -/

namespace Sys2Proof.Machine

/-! ## Registers (R14, R15) -/

/-- `x[r]`: register 0 reads as zero whatever its cell holds (R15). -/
def State.readReg (s : State) (r : Reg) : Word := if r = 0 then 0 else s.regs[r]

/-- `X[r] <- v`: write a storage cell, register 0's included (R12). -/
def State.writeCell (s : State) (r : Reg) (v : Word) : State := { s with regs := s.regs.set r v }

/-- `x[r] <- v`: a write to register 0 has no effect (R12, R15). -/
def State.writeReg (s : State) (r : Reg) (v : Word) : State :=
  { s with regs := if r = 0 then s.regs else s.regs.set r v }

/-- `X[0] <- 0`, steps 1 and 5 of R80. -/
def State.forceX0 (s : State) : State := s.writeCell 0 0

/-! ## The program counter (R19 to R21) -/

/-- `pc <- t` -/
def State.setPc (s : State) (t : Word) : State := { s with pc := t }

/-- `ipc` during Execute, where `pc` holds `ipc + 4` (R19, R80; log 6). -/
def State.ipc (s : State) : Word := s.pc - 4

/-! ## Memory (R33 to R37) -/

/-- `InBounds(a, n)` of R33 for a buffer of `size` bytes. -/
def inBounds (size : Nat) (a : Word) (n : Nat) : Bool :=
  (List.range n).all fun k => decide ((a + BitVec.ofNat 32 k).toNat < size)

/-- An access of `n` bytes at `a` that the option `MISALIGNED_DATA = fault` refuses (R34, R35, R38). -/
def misaligned (c : Config) (a : Word) (n : Nat) : Bool :=
  decide (c.misalignedData = .fault) && decide (1 < n) && decide (a.toNat % n ≠ 0)

/-- The fault of a load of `n` bytes at `a`, if it has one: alignment before bounds (R34, R150). -/
def loadFault (c : Config) (a : Word) (n : Nat) : Option Cause :=
  if misaligned c a n then some (.loadAddressMisaligned a)
  else if inBounds c.memSize a n then none
  else some (.loadAccessFault a)

/-- The fault of a store of `n` bytes at `a`, if it has one: alignment before bounds (R35, R150). -/
def storeFault (c : Config) (a : Word) (n : Nat) : Option Cause :=
  if misaligned c a n then some (.storeAddressMisaligned a)
  else if inBounds c.memSize a n then none
  else some (.storeAccessFault a)

/-- `Mem[a]` -/
def State.byteAt (s : State) (a : Word) : Byte := s.mem.read a.toNat

/-- The 2 bytes at `a`, the byte at `a` least significant (R34). -/
def State.halfAt (s : State) (a : Word) : BitVec 16 := (littleEndian (s.byteAt a) (s.byteAt (a + 1)) 0 0).setWidth 16

/-- The 4 bytes at `a`, the byte at `a` least significant (R34). -/
def State.wordAt (s : State) (a : Word) : Word :=
  littleEndian (s.byteAt a) (s.byteAt (a + 1)) (s.byteAt (a + 2)) (s.byteAt (a + 3))

/-- `Mem[a + k] <- v[8k+7 : 8k]` for `k` in `0 .. n-1` (R35). -/
def storeBytes (m : Memory) (a v : Word) : Nat → Memory
  | 0 => m
  | n + 1 => (storeBytes m a v n).write (a + BitVec.ofNat 32 n).toNat (v.extractLsb' (8 * n) 8)

/-- Write the low `n` bytes of `v` at `a`, after every check (R35). -/
def State.store (s : State) (a v : Word) (n : Nat) : State := { s with mem := storeBytes s.mem a v n }

/-! ## Output and the end of a run (R25, R124) -/

/-- `Out(str)`: one fragment at the end of the stream. -/
def State.output (s : State) (str : Text) : State := { s with out := s.out ++ [str] }

/-- `halt` -/
def State.halt (s : State) : State := { s with run := .halted }

/-! ## Faults (R83, R140) -/

/-- `raise`: the record, the diagnostic and the run state; nothing else changes (R140). Every trap of the model is this
operation. -/
def State.raise (s : State) (r : TrapRecord) : State :=
  { s with fault := some r, out := s.out ++ [Config.diag r], run := .trapped }

/-- A fault at fetch: the record holds the fetch address and no word (R140, R81). -/
def raiseAtFetch (c : Cause) (s : State) : Outcome := .next (s.raise ⟨c, s.pc, none⟩)

/-- A fault at decode or during Execute, with the fetched word `w`: `pc` is already `ipc + 4` (R83, R140). -/
def raiseFetched (c : Cause) (w : Word) (s : State) : Outcome := .next (s.raise ⟨c, s.ipc, some w⟩)

/-- A fault an instruction raises during Execute: its word is its encoding (log 6). -/
def raiseInExecute (c : Cause) (i : Instr) (s : State) : Outcome := raiseFetched c (encode i) s

/-! ## The shapes the meanings share -/

/-- Write a result to `rd`; `pc` stays `ipc + 4` (R90, R101). -/
def writeResult (rd : Reg) (v : Word) (s : State) : Outcome := .next (s.writeReg rd v)

/-- A load of `n` bytes at `a` whose extended value is `v`: its fault, or the write of `rd` (R111). -/
def loadInto (i : Instr) (rd : Reg) (a : Word) (n : Nat) (v : Word) (s : State) : Outcome :=
  match loadFault s.cfg a n with
  | some c => raiseInExecute c i s
  | none => .next (s.writeReg rd v)

/-- A store of the low `n` bytes of `v` at `a`: its fault, or the bytes (R117). -/
def storeFrom (i : Instr) (a v : Word) (n : Nat) (s : State) : Outcome :=
  match storeFault s.cfg a n with
  | some c => raiseInExecute c i s
  | none => .next (s.store a v n)

/-- A conditional transfer: `pc <- ipc + imm` when the condition holds, else `pc` stays `ipc + 4` (R128). -/
def branchIf (cond : Bool) (imm : Word) (s : State) : Outcome :=
  .next (s.setPc (if cond then s.ipc + imm else s.pc))

end Sys2Proof.Machine
end

