-- ==== Sys2Proof/Machine/Flags.lean ====
section
/-! DEFINITION. The core has no flags (R22): a comparison is a Boolean, written into a register as 0 or 1, or decides a
branch (R10). -/

namespace Sys2Proof.Machine

/-- `bool(c)` of R10. -/
def boolWord (c : Bool) : Word := if c then 1 else 0

/-- `a <s b`: `s(a) < s(b)` (R10). -/
def lessSigned (a b : Word) : Bool := decide (a.toInt < b.toInt)

/-- `a <u b`: `u(a) < u(b)` (R10). -/
def lessUnsigned (a b : Word) : Bool := decide (a.toNat < b.toNat)

end Sys2Proof.Machine
end

