-- ==== Sys2Proof/Machine/Operands.lean ====
section
/-! DEFINITION. The operand forms: register roles, effective addresses, shift amounts and transfer targets. -/

namespace Sys2Proof.Machine

/-- `x2`, the stack pointer (R17). -/
def regSp : Reg := 2
/-- `x10`, a syscall's argument (R121). -/
def regA0 : Reg := 10
/-- `x17`, the syscall number (R121). -/
def regA7 : Reg := 17

/-- The effective address of loads (R111) and stores (R117): base plus displacement, modulo 2^32. -/
def State.effectiveAddress (s : State) (rs1 : Reg) (imm : Word) : Word := s.readReg rs1 + imm

/-- `v[4:0]` as a shift amount 0..31 (R63, R93, R97, R98). -/
def shiftAmount (v : Word) : Nat := (v.extractLsb' 0 5).toNat

/-- The target of JALR: bit 0 of the sum cleared (R130). -/
def State.jalrTarget (s : State) (rs1 : Reg) (imm : Word) : Word := (s.readReg rs1 + imm) &&& 0xFFFFFFFE

end Sys2Proof.Machine
end

