-- ==== Sys2Proof/Machine/AluImmediate.lean ====
section
/-! DEFINITION. Register-immediate ALU instructions, opcode 0x13 (R101 to R110). -/

namespace Sys2Proof.Machine

/-- ADDI (R102): addition modulo 2^32. -/
def execAddi (rd rs1 : Reg) (imm : Word) (s : State) : Outcome :=
  writeResult rd (s.readReg rs1 + imm) s

/-- SLTI (R103): 1 if less, signed, else 0. -/
def execSlti (rd rs1 : Reg) (imm : Word) (s : State) : Outcome :=
  writeResult rd (boolWord (lessSigned (s.readReg rs1) imm)) s

/-- SLTIU (R104): 1 if less, the extended immediate read as unsigned, else 0. -/
def execSltiu (rd rs1 : Reg) (imm : Word) (s : State) : Outcome :=
  writeResult rd (boolWord (lessUnsigned (s.readReg rs1) imm)) s

/-- XORI (R105): bitwise exclusive or. -/
def execXori (rd rs1 : Reg) (imm : Word) (s : State) : Outcome :=
  writeResult rd (s.readReg rs1 ^^^ imm) s

/-- ORI (R106): bitwise or. -/
def execOri (rd rs1 : Reg) (imm : Word) (s : State) : Outcome :=
  writeResult rd (s.readReg rs1 ||| imm) s

/-- ANDI (R107): bitwise and. -/
def execAndi (rd rs1 : Reg) (imm : Word) (s : State) : Outcome :=
  writeResult rd (s.readReg rs1 &&& imm) s

/-- SLLI (R108): left shift by `shamt`. -/
def execSlli (rd rs1 : Reg) (shamt : BitVec 5) (s : State) : Outcome :=
  writeResult rd (s.readReg rs1 <<< shamt.toNat) s

/-- SRLI (R109): logical right shift by `shamt`. -/
def execSrli (rd rs1 : Reg) (shamt : BitVec 5) (s : State) : Outcome :=
  writeResult rd (s.readReg rs1 >>> shamt.toNat) s

/-- SRAI (R110): arithmetic right shift by `shamt`. -/
def execSrai (rd rs1 : Reg) (shamt : BitVec 5) (s : State) : Outcome :=
  writeResult rd ((s.readReg rs1).sshiftRight shamt.toNat) s

end Sys2Proof.Machine
end

