-- ==== Sys2Proof/Machine/AluRegister.lean ====
section
/-! DEFINITION. Register-register ALU instructions, opcode 0x33 (R90 to R100). -/

namespace Sys2Proof.Machine

/-- ADD (R91): addition modulo 2^32. -/
def execAdd (rd rs1 rs2 : Reg) (s : State) : Outcome :=
  writeResult rd (s.readReg rs1 + s.readReg rs2) s

/-- SUB (R92): subtraction modulo 2^32. -/
def execSub (rd rs1 rs2 : Reg) (s : State) : Outcome :=
  writeResult rd (s.readReg rs1 - s.readReg rs2) s

/-- SLL (R93): left shift by the low 5 bits of `x[rs2]`. -/
def execSll (rd rs1 rs2 : Reg) (s : State) : Outcome :=
  writeResult rd (s.readReg rs1 <<< shiftAmount (s.readReg rs2)) s

/-- SLT (R94): 1 if less, signed, else 0. -/
def execSlt (rd rs1 rs2 : Reg) (s : State) : Outcome :=
  writeResult rd (boolWord (lessSigned (s.readReg rs1) (s.readReg rs2))) s

/-- SLTU (R95): 1 if less, unsigned, else 0. -/
def execSltu (rd rs1 rs2 : Reg) (s : State) : Outcome :=
  writeResult rd (boolWord (lessUnsigned (s.readReg rs1) (s.readReg rs2))) s

/-- XOR (R96): bitwise exclusive or. -/
def execXor (rd rs1 rs2 : Reg) (s : State) : Outcome :=
  writeResult rd (s.readReg rs1 ^^^ s.readReg rs2) s

/-- SRL (R97): logical right shift by the low 5 bits of `x[rs2]`. -/
def execSrl (rd rs1 rs2 : Reg) (s : State) : Outcome :=
  writeResult rd (s.readReg rs1 >>> shiftAmount (s.readReg rs2)) s

/-- SRA (R98): arithmetic right shift by the low 5 bits of `x[rs2]`. -/
def execSra (rd rs1 rs2 : Reg) (s : State) : Outcome :=
  writeResult rd ((s.readReg rs1).sshiftRight (shiftAmount (s.readReg rs2))) s

/-- OR (R99): bitwise or. -/
def execOr (rd rs1 rs2 : Reg) (s : State) : Outcome :=
  writeResult rd (s.readReg rs1 ||| s.readReg rs2) s

/-- AND (R100): bitwise and. -/
def execAnd (rd rs1 rs2 : Reg) (s : State) : Outcome :=
  writeResult rd (s.readReg rs1 &&& s.readReg rs2) s

end Sys2Proof.Machine
end

