-- ==== Sys2Proof/Machine/ControlTransfer.lean ====
section
/-! DEFINITION. Control-transfer instructions, opcodes 0x6F, 0x67 and 0x63 (R128 to R136). A transfer raises nothing in its
own step: a bad target faults at the next fetch (R128). -/

namespace Sys2Proof.Machine

/-- JAL (R129): link `ipc + 4`, jump to `ipc + imm`. -/
def execJal (rd : Reg) (imm : Word) (s : State) : Outcome :=
  .next ((s.writeReg rd (s.ipc + 4)).setPc (s.ipc + imm))

/-- JALR (R130): the target is read before the link is written (R82). -/
def execJalr (rd rs1 : Reg) (imm : Word) (s : State) : Outcome :=
  .next ((s.writeReg rd (s.ipc + 4)).setPc (s.jalrTarget rs1 imm))

/-- BEQ (R131): branch if equal. -/
def execBeq (rs1 rs2 : Reg) (imm : Word) (s : State) : Outcome :=
  branchIf (s.readReg rs1 == s.readReg rs2) imm s

/-- BNE (R132): branch if not equal. -/
def execBne (rs1 rs2 : Reg) (imm : Word) (s : State) : Outcome :=
  branchIf (s.readReg rs1 != s.readReg rs2) imm s

/-- BLT (R133): branch if less, signed. -/
def execBlt (rs1 rs2 : Reg) (imm : Word) (s : State) : Outcome :=
  branchIf (lessSigned (s.readReg rs1) (s.readReg rs2)) imm s

/-- BGE (R134): branch if greater or equal, signed. -/
def execBge (rs1 rs2 : Reg) (imm : Word) (s : State) : Outcome :=
  branchIf (!lessSigned (s.readReg rs1) (s.readReg rs2)) imm s

/-- BLTU (R135): branch if less, unsigned. -/
def execBltu (rs1 rs2 : Reg) (imm : Word) (s : State) : Outcome :=
  branchIf (lessUnsigned (s.readReg rs1) (s.readReg rs2)) imm s

/-- BGEU (R136): branch if greater or equal, unsigned. -/
def execBgeu (rs1 rs2 : Reg) (imm : Word) (s : State) : Outcome :=
  branchIf (!lessUnsigned (s.readReg rs1) (s.readReg rs2)) imm s

end Sys2Proof.Machine
end

