-- ==== Sys2Proof/Machine/Loads.lean ====
section
/-! DEFINITION. Load instructions, opcode 0x03 (R111 to R116). -/

namespace Sys2Proof.Machine

/-- LB (R112): the byte, sign-extended. -/
def execLb (rd rs1 : Reg) (imm : Word) (s : State) : Outcome :=
  let a := s.effectiveAddress rs1 imm
  loadInto (.lb rd rs1 imm) rd a 1 ((s.byteAt a).signExtend 32) s

/-- LH (R113): the halfword, sign-extended. -/
def execLh (rd rs1 : Reg) (imm : Word) (s : State) : Outcome :=
  let a := s.effectiveAddress rs1 imm
  loadInto (.lh rd rs1 imm) rd a 2 ((s.halfAt a).signExtend 32) s

/-- LW (R114): the word. -/
def execLw (rd rs1 : Reg) (imm : Word) (s : State) : Outcome :=
  let a := s.effectiveAddress rs1 imm
  loadInto (.lw rd rs1 imm) rd a 4 (s.wordAt a) s

/-- LBU (R115): the byte, zero-extended. -/
def execLbu (rd rs1 : Reg) (imm : Word) (s : State) : Outcome :=
  let a := s.effectiveAddress rs1 imm
  loadInto (.lbu rd rs1 imm) rd a 1 ((s.byteAt a).setWidth 32) s

/-- LHU (R116): the halfword, zero-extended. -/
def execLhu (rd rs1 : Reg) (imm : Word) (s : State) : Outcome :=
  let a := s.effectiveAddress rs1 imm
  loadInto (.lhu rd rs1 imm) rd a 2 ((s.halfAt a).setWidth 32) s

end Sys2Proof.Machine
end

