-- ==== Sys2Proof/Machine/NotAdmitted.lean ====
section
/-! DEFINITION. The rows of the opcode table that are not admitted (R3, R46, R70): each raises IllegalInstruction with the
instruction word (R142; log 7). -/

namespace Sys2Proof.Machine

/-- FENCE, FENCE.TSO, PAUSE, FENCE.I: every word of opcode 0x0F (R46, R142). -/
def execFence (bits : BitVec 25) (s : State) : Outcome :=
  raiseInExecute (.illegalInstruction (encode (.fence bits))) (.fence bits) s

/-- EBREAK (R70, R142, R161). -/
def execEbreak (s : State) : Outcome :=
  raiseInExecute (.illegalInstruction (encode .ebreak)) .ebreak s

/-- The CSR instructions, MRET, SRET, WFI, SFENCE.VMA and every other opcode 0x73 word (R70, R142). -/
def execSystemOther (bits : BitVec 25) (s : State) : Outcome :=
  raiseInExecute (.illegalInstruction (encode (.systemOther bits))) (.systemOther bits) s

end Sys2Proof.Machine
end

