-- ==== Sys2Proof/Machine/Stores.lean ====
section
/-! DEFINITION. Store instructions, opcode 0x23 (R117 to R120). -/

namespace Sys2Proof.Machine

/-- SB (R118): the low byte of `x[rs2]`. -/
def execSb (rs1 rs2 : Reg) (imm : Word) (s : State) : Outcome :=
  storeFrom (.sb rs1 rs2 imm) (s.effectiveAddress rs1 imm) (s.readReg rs2) 1 s

/-- SH (R119): the low halfword of `x[rs2]`. -/
def execSh (rs1 rs2 : Reg) (imm : Word) (s : State) : Outcome :=
  storeFrom (.sh rs1 rs2 imm) (s.effectiveAddress rs1 imm) (s.readReg rs2) 2 s

/-- SW (R120): the word of `x[rs2]`. -/
def execSw (rs1 rs2 : Reg) (imm : Word) (s : State) : Outcome :=
  storeFrom (.sw rs1 rs2 imm) (s.effectiveAddress rs1 imm) (s.readReg rs2) 4 s

end Sys2Proof.Machine
end

