-- ==== Sys2Proof/Machine/Characters.lean ====
section
/-! DEFINITION. The text the syscalls print: decimal integers (R122) and characters (R123, R125). -/

namespace Sys2Proof.Machine

/-- The ASCII character of a decimal digit. -/
def digitChar (d : Nat) : Char := Char.ofNat (48 + d)

/-- The decimal digits of `n`, most significant first, no leading zero; `fuel` is at least their number. -/
def decimalDigits : Nat → Nat → Text
  | 0, _ => []
  | fuel + 1, n => if n < 10 then [digitChar n] else decimalDigits fuel (n / 10) ++ [digitChar (n % 10)]

/-- `Dec(i)` of R122, for `|i| < 10^10` (a 32-bit register's value has at most 10 digits). -/
def decimal (i : Int) : Text :=
  if i < 0 then '-' :: decimalDigits 10 i.natAbs else decimalDigits 10 i.natAbs

/-- `Char11(v)` of R125: the ASCII character for codes 0..127, else the open text `CHAR_OUT(v)` (D18). -/
def charOfCode (v : Word) : Text := if v.toNat < 128 then [Char.ofNat v.toNat] else Config.charOut v

/-- `Char(b)` of R123. -/
def charOfByte (b : Byte) : Text := charOfCode (b.setWidth 32)

end Sys2Proof.Machine
end

