-- ==== Sys2Proof/Machine/System.lean ====
section
/-! DEFINITION. ECALL and the syscalls (R121 to R127). -/

namespace Sys2Proof.Machine

/-- How the string scan of syscall 4 ends. -/
inductive ScanResult where
  /-- a zero byte was met: the text before it -/
  | text (t : Text)
  /-- the first out-of-bounds address, met before any zero byte -/
  | outOfBounds (a : Word)
  /-- neither within the addresses allowed (log 8) -/
  | endless
  deriving DecidableEq, Repr

/-- Put a character's text before what the rest of the scan reads. -/
def ScanResult.prepend (t : Text) : ScanResult → ScanResult
  | .text u => .text (t ++ u)
  | .outOfBounds a => .outOfBounds a
  | .endless => .endless

/-- The scan of R123 from address `a`, over at most the given number of addresses. -/
def scanString (s : State) : Nat → Word → ScanResult
  | 0, _ => .endless
  | addresses + 1, a =>
    if inBounds s.cfg.memSize a 1 then
      if s.byteAt a = 0 then .text [] else (scanString s addresses (a + 1)).prepend (charOfByte (s.byteAt a))
    else .outOfBounds a

/-- Syscall 1, print integer (R122). -/
def syscallPrintInt (v : Word) (s : State) : Outcome := .next (s.output (decimal v.toInt))

/-- Syscall 4, print string (R123): the whole string is read before anything is appended. After at most `MEM_SIZE` reads
the scan meets a zero byte or an out-of-bounds address (R123), so `MEM_SIZE + 1` addresses are enough. -/
def syscallPrintString (v : Word) (s : State) : Outcome :=
  match scanString s (s.cfg.memSize + 1) v with
  | .text t => .next (s.output t)
  | .outOfBounds a => raiseInExecute (.loadAccessFault a) .ecall s
  | .endless => .fault .stringScanEndless

/-- Syscall 10, halt (R124). -/
def syscallHalt (s : State) : Outcome := .next s.halt

/-- Syscall 11, print character (R125). -/
def syscallPrintChar (v : Word) (s : State) : Outcome := .next (s.output (charOfCode v))

/-- ECALL (R121): the service `a7` selects, all 32 bits compared, with the argument `a0`; any other number raises
UnsupportedSyscall (R126). -/
def execEcall (s : State) : Outcome :=
  let n := s.readReg regA7
  let v := s.readReg regA0
  if n.toNat = 1 then syscallPrintInt v s
  else if n.toNat = 4 then syscallPrintString v s
  else if n.toNat = 10 then syscallHalt s
  else if n.toNat = 11 then syscallPrintChar v s
  else raiseInExecute (.unsupportedSyscall n) .ecall s

end Sys2Proof.Machine
end

