-- ==== Sys2Proof/Machine/UpperImmediate.lean ====
section
/-! DEFINITION. Upper-immediate instructions, opcodes 0x37 and 0x17 (R138, R139). -/

namespace Sys2Proof.Machine

/-- LUI (R138): the immediate, its low 12 bits zero. -/
def execLui (rd : Reg) (imm : Word) (s : State) : Outcome :=
  writeResult rd imm s

/-- AUIPC (R139): the instruction's own address plus the immediate. -/
def execAuipc (rd : Reg) (imm : Word) (s : State) : Outcome :=
  writeResult rd (s.ipc + imm) s

end Sys2Proof.Machine
end

