-- ==== Sys2Proof/Machine/Fetch.lean ====
section
/-! DEFINITION. The parts of a step around Execute (R78 to R83): entering a step, fetching, advancing, and the end of a
step. -/

namespace Sys2Proof.Machine

/-- A step exists exactly in these run states (R78, R79). -/
def State.runnable (s : State) : Bool := s.run = .loaded || s.run = .running || s.run = .limitExceeded

/-- The start of a step: `run <- Running; X[0] <- 0` (R80, step 1). -/
def State.enterStep (s : State) : State := { s.forceX0 with run := .running }

/-- `pc[1:0] = 0b00` (R39). -/
def pcAligned (pc : Word) : Bool := pc.extractLsb' 0 2 == 0

/-- The fault of a fetch at `pc`, if it has one: alignment before bounds (R81, R150). -/
def fetchFault (c : Config) (pc : Word) : Option Cause :=
  if pcAligned pc then if inBounds c.memSize pc 4 then none else some (.instructionAccessFault pc)
  else some (.instructionAddressMisaligned pc)

/-- The word at `pc`, 4 little-endian bytes (R80, step 2). -/
def State.fetchedWord (s : State) : Word := s.wordAt s.pc

/-- `pc <- ipc + 4`, before decode (R80, step 3). -/
def State.advance (s : State) : State := s.setPc (s.pc + 4)

/-- The state in which an instruction executes: the step entered, the word fetched, `pc` advanced (R80). -/
def State.atExecute (s : State) : State := s.enterStep.advance

/-- Step 5 of R80: `X[0] <- 0` after write-back. After a raise it has no effect (R140). -/
def endStep : Outcome → Outcome
  | .next t => .next t.forceX0
  | .fault f => .fault f
  | .refused r => .refused r

/-- The word of `State.withFetchWord` placed at `a`. -/
def State.placeWord (s : State) (a w : Word) : State := s.store a w 4

/-- The state with a fetch possible: in a run state without steps, what `load` leaves of `run` and `fault` (R164); a
`pc` that cannot be fetched from moved to 0 (log 10). -/
def State.readyToFetch (s : State) : State :=
  { s with
    pc := if fetchFault s.cfg s.pc = none then s.pc else 0
    run := if s.runnable then s.run else .loaded
    fault := if s.runnable then s.fault else none }

end Sys2Proof.Machine
end

