-- ==== Sys2Proof/Machine/Step.lean ====
section
/-! DEFINITION. One step of the core (R80), and the state whose next step runs a given word. -/

namespace Sys2Proof.Machine

/-- The per-step contract of R80. In Unloaded, Halted and Trapped a step changes no state (R78). -/
def step (s : State) : Host.Outcome State Fault Refusal :=
  if s.runnable then
    match fetchFault s.cfg s.pc with
    | some c => raiseAtFetch c s.enterStep
    | none =>
      match decode s.fetchedWord with
      | .error _ => raiseFetched (.illegalInstruction s.fetchedWord) s.fetchedWord s.atExecute
      | .ok i => endStep (exec i s.atExecute)
  else .next s

/-- `s` with the word `w` (its bits above `nbits` zero) where the next step fetches, and a step possible: it stands for
the `load` that places a program (R164; log 10). -/
def State.withFetchWord (s : State) (nbits w : Nat) : State :=
  s.readyToFetch.placeWord s.readyToFetch.pc (tableWord nbits w)

end Sys2Proof.Machine
end

