-- ==== Sys2Proof/Machine/Pseudo.lean ====
section
/-! DEFINITION. Register names (R17) and pseudo-instructions (R75): other spellings of core instructions. -/

namespace Sys2Proof.Machine

/-- The ABI name of a register (R17). -/
def abiName (r : Reg) : String :=
  ["zero", "ra", "sp", "gp", "tp", "t0", "t1", "t2", "s0", "s1", "a0", "a1", "a2", "a3", "a4", "a5",
   "a6", "a7", "s2", "s3", "s4", "s5", "s6", "s7", "s8", "s9", "s10", "s11", "t3", "t4", "t5", "t6"].getD r.val ""

/-- The register an assembly name stands for: `xN` or an ABI alias (R17).
DESIGN CHOICE (log 18): R17 leaves open whether `zero` and `fp` are accepted; the model accepts both, as the names its
table gives `x0` and `x8`. -/
def resolveRegister (name : String) : Option Reg :=
  if name = "fp" then some 8
  else (List.finRange 32).find? fun r => name = abiName r || name = "x" ++ Nat.repr r.val

/-- The pseudo-instructions of R75; a label operand is given as its offset from the pseudo-instruction's own address
(R74), the constant of `li` as the integer its literal denotes (log 19). -/
inductive Pseudo where
  | nop
  | li (rd : Reg) (imm : Int)
  | mv (rd rs : Reg)
  | not (rd rs : Reg)
  | neg (rd rs : Reg)
  | seqz (rd rs : Reg)
  | snez (rd rs : Reg)
  | sltz (rd rs : Reg)
  | sgtz (rd rs : Reg)
  | beqz (rs : Reg) (offset : Word)
  | bnez (rs : Reg) (offset : Word)
  | blez (rs : Reg) (offset : Word)
  | bgez (rs : Reg) (offset : Word)
  | bltz (rs : Reg) (offset : Word)
  | bgtz (rs : Reg) (offset : Word)
  | bgt (rs rt : Reg) (offset : Word)
  | ble (rs rt : Reg) (offset : Word)
  | bgtu (rs rt : Reg) (offset : Word)
  | bleu (rs rt : Reg) (offset : Word)
  | j (offset : Word)
  | jal (offset : Word)
  | jr (rs : Reg)
  | jalr (rs : Reg)
  | ret
  | call (offset : Word)
  | tail (offset : Word)
  | la (rd : Reg) (offset : Word)
  deriving DecidableEq, Repr

/-- `lo` of R75: the low 12 bits of a value, sign-extended. -/
def lowPart (v : Word) : Word := (v.extractLsb' 0 12).signExtend 32

/-- `hi` of R75, placed in bits 31..12 as `imm_U`: the value less its `lo`. -/
def highPart (v : Word) : Word := (v - lowPart v) &&& 0xFFFFF000

/-- The expansion of `li` (R75): one ADDI when the constant itself is in `-2048 .. 2047`, else LUI and ADDI.
DESIGN CHOICE (log 19): R75 does not say how a literal is valued; the constant is an integer, `0xFFFFFFFF` denotes
4294967295, so it takes two instructions where -1 takes one. -/
def expandLi (rd : Reg) (imm : Int) : List Instr :=
  let v := BitVec.ofInt 32 imm
  if -2048 ≤ imm ∧ imm ≤ 2047 then [.addi rd 0 v] else [.lui rd (highPart v), .addi rd rd (lowPart v)]

/-- The expansion of a pseudo-instruction (R75); `call`, `tail` and `la` split the offset from their own address
(log 16). -/
def Pseudo.expand : Pseudo → List Instr
  | .nop => [.addi 0 0 0]
  | .li rd imm => expandLi rd imm
  | .mv rd rs => [.addi rd rs 0]
  | .not rd rs => [.xori rd rs (-1)]
  | .neg rd rs => [.sub rd 0 rs]
  | .seqz rd rs => [.sltiu rd rs 1]
  | .snez rd rs => [.sltu rd 0 rs]
  | .sltz rd rs => [.slt rd rs 0]
  | .sgtz rd rs => [.slt rd 0 rs]
  | .beqz rs off => [.beq rs 0 off]
  | .bnez rs off => [.bne rs 0 off]
  | .blez rs off => [.bge 0 rs off]
  | .bgez rs off => [.bge rs 0 off]
  | .bltz rs off => [.blt rs 0 off]
  | .bgtz rs off => [.blt 0 rs off]
  | .bgt rs rt off => [.blt rt rs off]
  | .ble rs rt off => [.bge rt rs off]
  | .bgtu rs rt off => [.bltu rt rs off]
  | .bleu rs rt off => [.bgeu rt rs off]
  | .j off => [.jal 0 off]
  | .jal off => [.jal 1 off]
  | .jr rs => [.jalr 0 rs 0]
  | .jalr rs => [.jalr 1 rs 0]
  | .ret => [.jalr 0 1 0]
  | .call off => [.auipc 1 (highPart off), .jalr 1 1 (lowPart off)]
  | .tail off => [.auipc 6 (highPart off), .jalr 0 6 (lowPart off)]
  | .la rd off => [.auipc rd (highPart off), .addi rd rd (lowPart off)]

end Sys2Proof.Machine
end

