-- ==== Sys2Proof/Machine/HostInterface.lean ====
section
/-! DEFINITION. The host's commands (R77, R78): `reset`, `load`, `step` (Machine/Step.lean) and `run`. -/

namespace Sys2Proof.Machine

/-- The command `reset` (R163); the core keeps its parameters, which are compile-time constants (R32). -/
def resetCommand (s : State) : State := State.resetWith s.cfg

/-- A program image: (address, byte) pairs (R164). -/
abbrev Image := List Host.Cell

/-- Why `load` refuses an image (R164). -/
inductive LoadRefusal where
  /-- a byte at an address not below `MEM_SIZE` -/
  | outsideMemory
  /-- two bytes at one address -/
  | duplicateAddress
  deriving DecidableEq, Repr

/-- The refusal of an image, if it has one; an image with both flaws reports the first (log 12). -/
def imageRefusal (size : Nat) (image : Image) : Option LoadRefusal :=
  if image.any (fun c => decide (size ≤ c.1)) then some .outsideMemory
  else if (image.map Prod.fst).Nodup then none
  else some .duplicateAddress

/-- `for (a, b) in image: Mem[a] <- b` (R164). -/
def placeImage (m : Memory) : Image → Memory
  | [] => m
  | (a, b) :: rest => placeImage (m.write a b) rest

/-- The state a successful `load` leaves (R164, R166). -/
def loadedState (c : Config) (image : Image) (entry : Word) : State :=
  let s := (State.resetWith c).writeCell regSp (BitVec.ofNat 32 c.stackTop)
  { s with mem := placeImage s.mem image, pc := entry, run := .loaded }

/-- The command `load(image, ENTRY)` (R164): refused with no state change, or the loaded state. -/
def loadCommand (image : Image) (entry : Word) (s : State) : Except LoadRefusal State :=
  match imageRefusal s.cfg.memSize image with
  | some r => .error r
  | none => .ok (loadedState s.cfg image entry)

/-- `ENTRY`: the address of `main` if defined, else `TEXT_BASE` (R7, R166). -/
def entryPoint (c : Config) (main : Option Word) : Word := main.getD (BitVec.ofNat 32 c.textBase)

/-- The outcomes `run` reports (R85). -/
inductive RunOutcome where
  | halted
  | trapped
  | instructionLimitExceeded
  deriving DecidableEq, Repr

/-- The outcome of a run state at the end of a `run` command (R85); a command in Unloaded reports none (log 11). -/
def RunState.outcome : RunState → Option RunOutcome
  | .halted => some .halted
  | .trapped => some .trapped
  | .limitExceeded => some .instructionLimitExceeded
  | .unloaded | .loaded | .running => none

/-- The loop of R84: at most `max` steps while the run state has steps; the state reached and the number of steps. -/
def runSteps : Nat → State → Host.Outcome (State × Nat) Fault Refusal
  | 0, s => .next (s, 0)
  | max + 1, s =>
    if s.runnable then
      match step s with
      | .next t =>
        match runSteps max t with
        | .next (u, n) => .next (u, n + 1)
        | .fault f => .fault f
        | .refused r => .refused r
      | .fault f => .fault f
      | .refused r => .refused r
    else .next (s, 0)

/-- The ceiling of R84: `run <- LimitExceeded` when neither halted nor trapped. -/
def State.ceiling (s : State) : State := { s with run := if s.runnable then .limitExceeded else s.run }

/-- The result of `run` (R85), with the state it leaves. -/
structure RunResult where
  state : State
  /-- Halted, Trapped or InstructionLimitExceeded -/
  outcome : Option RunOutcome
  /-- the number of steps performed -/
  steps : Nat
  /-- the fragments appended during the run, oldest first (R85, R87) -/
  output : List Text
  deriving DecidableEq, Repr

/-- The command `run(maxInstructions)` (R84, R85). -/
def runCommand (max : Nat) (s : State) : Host.Outcome RunResult Fault Refusal :=
  match runSteps max s with
  | .next (t, n) => .next ⟨t.ceiling, t.ceiling.run.outcome, n, t.out.drop s.out.length⟩
  | .fault f => .fault f
  | .refused r => .refused r

/-- The commands of R77. -/
inductive Command where
  | reset
  | load (image : Image) (entry : Word)
  | step
  | run (maxInstructions : Nat)
  deriving DecidableEq, Repr

/-- The state a command leaves; commands are accepted in every run state (R78), and a refused `load` changes nothing. -/
def perform (c : Command) (s : State) : Outcome :=
  match c with
  | .reset => .next (resetCommand s)
  | .load image entry =>
    match loadCommand image entry s with
    | .ok t => .next t
    | .error _ => .next s
  | .step => step s
  | .run max =>
    match runCommand max s with
    | .next r => .next r.state
    | .fault f => .fault f
    | .refused r => .refused r

/-- A run of the core has ended (R89). -/
def State.ended (s : State) : Bool := s.run = .halted || s.run = .trapped

end Sys2Proof.Machine
end

