-- ==== Sys2Proof/Safety.lean ====
section
/-! DEFINITION. What holds of every state a core reaches, and what a fault leaves alone, in the terms the statements use. -/

namespace Sys2Proof.Machine

/-- The invariant of the core's states. -/
structure State.Inv (s : State) : Prop where
  /-- the parameters meet R7's constraints -/
  configOk : s.cfg.wf
  /-- the memory list has its canonical form -/
  memOk : Memory.wf s.mem
  /-- every byte that is not zero lies in the buffer (R29, R43) -/
  memWithin : Memory.within s.cfg.memSize s.mem
  /-- the storage cell of `x0` holds 0 between steps (R15, R80) -/
  zeroCell : s.regs[0] = 0
  /-- `fault` is empty except in Trapped (R24) -/
  faultIffTrapped : s.fault.isSome = true ↔ s.run = .trapped
  /-- a trapped run's last output is the diagnostic of its record (R152) -/
  diagLast : ∀ r, s.fault = some r → s.out.getLast? = some (Config.diag r)

/-- A state some sequence of the host's commands reaches from the state after reset (R77, R78). -/
inductive Reachable (c : Config) : State → Prop where
  | reset : Reachable c (State.resetWith c)
  | command {s t : State} (cmd : Command) : Reachable c s → perform cmd s = .next t → Reachable c t

/-- The control-transfer instructions (R128 to R136): the only ones that write `pc` during Execute (R20). -/
def isTransfer (i : Instr) : Bool :=
  [Op.jal, Op.jalr, Op.beq, Op.bne, Op.blt, Op.bge, Op.bltu, Op.bgeu].contains i.op

/-- The store instructions (R117 to R120): the only ones that write memory (R40). -/
def isStore (i : Instr) : Bool := [Op.sb, Op.sh, Op.sw].contains i.op

/-- Every register reads the same (R14). -/
def sameRegs (s t : State) : Prop := ∀ r : Reg, t.readReg r = s.readReg r

/-- Every byte of memory reads the same. -/
def sameMem (s t : State) : Prop := ∀ a : Nat, t.mem.read a = s.mem.read a

/-- The run state, the fault record, the output and the parameters are the same: what an instruction that neither
prints, halts nor traps leaves alone beside registers, memory and `pc`. -/
def sameStatus (s t : State) : Prop := t.run = s.run ∧ t.fault = s.fault ∧ t.out = s.out ∧ t.cfg = s.cfg

/-- `t` is `s` trapped with the record `r`, precisely: no register, no byte of memory and no parameter changed, `pc` as
given, the diagnostic the only output (R83, R140, R153). -/
def trappedFrom (s t : State) (pc : Word) (r : TrapRecord) : Prop :=
  sameRegs s t ∧ sameMem s t ∧ t.cfg = s.cfg ∧ t.pc = pc ∧ t.fault = some r ∧ t.run = .trapped ∧
    t.out = s.out ++ [Config.diag r]

/-- A byte address is one of the `n` bytes an access at `a` covers (R33, R35). -/
def covers (a : Word) (n : Nat) (b : Nat) : Prop := ∃ k, k < n ∧ b = (a + BitVec.ofNat 32 k).toNat

/-! ## The terms of the statements about one instruction -/

/-- Executing `i` completes by writing `v` to `rd` and nothing else: `x0` stays 0 whatever `rd` is, every other register,
every byte of memory, the status and `pc` (already `ipc + 4`) are as before (R15, R90). -/
def writesOnly (i : Instr) (s : State) (rd : Reg) (v : Word) : Prop :=
  ∃ t, exec i s = .next t ∧ (∀ r : Reg, t.readReg r = if r = 0 then 0 else if r = rd then v else s.readReg r) ∧
    t.pc = s.pc ∧ sameMem s t ∧ sameStatus s t

/-- Executing `i` traps precisely with the cause `c`: the record holds the instruction's own address (`pc` is already
`ipc + 4`) and its word (R83, R140). -/
def trapsWith (i : Instr) (s : State) (c : Cause) : Prop :=
  ∃ t, exec i s = .next t ∧ trappedFrom s t s.pc ⟨c, s.pc - 4, some (encode i)⟩

/-- R33's bounds. -/
def accessInBounds (c : Config) (a : Word) (n : Nat) : Prop := ∀ k, k < n → (a + BitVec.ofNat 32 k).toNat < c.memSize

/-- R38's option: an access the core refuses as misaligned. -/
def accessMisaligned (c : Config) (a : Word) (n : Nat) : Prop :=
  c.misalignedData = .fault ∧ 1 < n ∧ a.toNat % n ≠ 0

/-- A load of `n` bytes at `a` into `rd`, whose extended value is `v`, in all its forms (R111, R150). -/
def loadsAs (i : Instr) (s : State) (rd : Reg) (a : Word) (n : Nat) (v : Word) : Prop :=
  (¬ accessMisaligned s.cfg a n → accessInBounds s.cfg a n → writesOnly i s rd v) ∧
    (accessMisaligned s.cfg a n → trapsWith i s (.loadAddressMisaligned a)) ∧
    (¬ accessMisaligned s.cfg a n → ¬ accessInBounds s.cfg a n → trapsWith i s (.loadAccessFault a))

/-- A store of the low `n` bytes of `v` at `a`, in all its forms: byte `k` at `a + k`, every other byte of memory and
every register as before; or a trap that writes no byte (R35, R117, R150). -/
def storesAs (i : Instr) (s : State) (a : Word) (n : Nat) (v : Word) : Prop :=
  (¬ accessMisaligned s.cfg a n → accessInBounds s.cfg a n →
    ∃ t, exec i s = .next t ∧ sameRegs s t ∧ t.pc = s.pc ∧ sameStatus s t ∧
      (∀ k, k < n → t.mem.read (a + BitVec.ofNat 32 k).toNat = BitVec.ofNat 8 (v.toNat / 2 ^ (8 * k))) ∧
      ∀ b, ¬ covers a n b → t.mem.read b = s.mem.read b) ∧
    (accessMisaligned s.cfg a n → trapsWith i s (.storeAddressMisaligned a)) ∧
    (¬ accessMisaligned s.cfg a n → ¬ accessInBounds s.cfg a n → trapsWith i s (.storeAccessFault a))

/-- A branch at `ipc` on a condition: only `pc` changes, to `ipc + imm` if it holds, else `ipc + 4` (R128). -/
def branchesOn (i : Instr) (s : State) (ipc imm : Word) (cond : Prop) : Prop :=
  ∃ t, exec i s = .next t ∧ sameRegs s t ∧ sameMem s t ∧ sameStatus s t ∧
    (cond → t.pc = ipc + imm) ∧ (¬ cond → t.pc = ipc + 4)

/-- A jump at `ipc`: `rd` links `ipc + 4` unless it is `x0`, `pc` becomes the target, nothing else changes (R128). -/
def jumpsTo (i : Instr) (s : State) (rd : Reg) (ipc target : Word) : Prop :=
  ∃ t, exec i s = .next t ∧ (∀ r : Reg, t.readReg r = if r = 0 then 0 else if r = rd then ipc + 4 else s.readReg r) ∧
    sameMem s t ∧ sameStatus s t ∧ t.pc = target

/-- ECALL completes by appending one fragment and nothing else (R25, R121). -/
def ecallPrints (s : State) (str : Text) : Prop :=
  ∃ t, exec .ecall s = .next t ∧ sameRegs s t ∧ sameMem s t ∧ t.pc = s.pc ∧ t.run = s.run ∧ t.fault = s.fault ∧
    t.cfg = s.cfg ∧ t.out = s.out ++ [str]

/-- The instruction's word is in the row with this mask and match (R64). -/
def inRow (i : Instr) (mask pattern : Word) : Prop := encode i &&& mask = pattern

/-- The field `w[lo+n-1 : lo]` as a number (R8). -/
def fieldOf (w : Word) (lo n : Nat) : Nat := w.toNat / 2 ^ lo % 2 ^ n

/-- The operands R64 gives an instruction decoded from `w`. -/
def operandsOf (w : Word) : Instr → Prop
  | .add rd rs1 rs2 | .sub rd rs1 rs2 | .sll rd rs1 rs2 | .slt rd rs1 rs2 | .sltu rd rs1 rs2 | .xor rd rs1 rs2
  | .srl rd rs1 rs2 | .sra rd rs1 rs2 | .or rd rs1 rs2 | .and rd rs1 rs2 =>
    rd.val = fieldOf w 7 5 ∧ rs1.val = fieldOf w 15 5 ∧ rs2.val = fieldOf w 20 5
  | .addi rd rs1 imm | .slti rd rs1 imm | .sltiu rd rs1 imm | .xori rd rs1 imm | .ori rd rs1 imm | .andi rd rs1 imm
  | .lb rd rs1 imm | .lh rd rs1 imm | .lw rd rs1 imm | .lbu rd rs1 imm | .lhu rd rs1 imm | .jalr rd rs1 imm =>
    rd.val = fieldOf w 7 5 ∧ rs1.val = fieldOf w 15 5 ∧ imm = immI w
  | .slli rd rs1 shamt | .srli rd rs1 shamt | .srai rd rs1 shamt =>
    rd.val = fieldOf w 7 5 ∧ rs1.val = fieldOf w 15 5 ∧ shamt.toNat = fieldOf w 20 5
  | .sb rs1 rs2 imm | .sh rs1 rs2 imm | .sw rs1 rs2 imm =>
    rs1.val = fieldOf w 15 5 ∧ rs2.val = fieldOf w 20 5 ∧ imm = immS w
  | .beq rs1 rs2 imm | .bne rs1 rs2 imm | .blt rs1 rs2 imm | .bge rs1 rs2 imm | .bltu rs1 rs2 imm | .bgeu rs1 rs2 imm =>
    rs1.val = fieldOf w 15 5 ∧ rs2.val = fieldOf w 20 5 ∧ imm = immB w
  | .jal rd imm => rd.val = fieldOf w 7 5 ∧ imm = immJ w
  | .lui rd imm | .auipc rd imm => rd.val = fieldOf w 7 5 ∧ imm = immU w
  | .ecall | .ebreak => True
  | .fence bits | .systemOther bits => bits.toNat = fieldOf w 7 25

/-- Execute instructions one after another, without the fetches between them. -/
def execAll : List Instr → State → Outcome
  | [], s => .next s
  | i :: rest, s =>
    match exec i s with
    | .next t => execAll rest t
    | .fault f => .fault f
    | .refused r => .refused r

end Sys2Proof.Machine
end

