-- ==== Sys2Proof/Certificates/Slice0/Obligations.lean ====
section
/-! DEFINITION. The statements for the provers. Their terms (writesOnly, trapsWith, loadsAs, storesAs, ...) are in
Sys2Proof/Safety.lean. -/

open Sys2Proof Sys2Proof.Machine

/-! ## Encoding and decoding -/

/-- Words written out field by field from R52 to R57 and the rows of R66 to R70 decode to the instructions they stand
for, and reserved words of R66, R67 and R70 decode to none. -/
def Obligations.SampleWordsDecode : Prop :=
  decode 0b0000000_00110_00101_000_00111_0110011 = .ok (.add 7 5 6) ∧
  decode 0b0100000_00110_00101_101_00111_0110011 = .ok (.sra 7 5 6) ∧
  decode 0b111111111111_00101_000_00111_0010011 = .ok (.addi 7 5 (-1)) ∧
  decode 0b0100000_11111_00101_101_00111_0010011 = .ok (.srai 7 5 31) ∧
  decode 0b111111111100_00101_010_00110_0000011 = .ok (.lw 6 5 (-4)) ∧
  decode 0b1111111_00110_00101_010_11000_0100011 = .ok (.sw 5 6 (-8)) ∧
  decode 0b1_111111_00110_00101_100_1100_1_1100011 = .ok (.blt 5 6 (-8)) ∧
  decode 0b0_0000000000_1_00000000_00001_1101111 = .ok (.jal 1 2048) ∧
  decode 0b000000000000_00001_000_00000_1100111 = .ok (.jalr 0 1 0) ∧
  decode 0b00010010001101000101_00101_0110111 = .ok (.lui 5 0x12345000) ∧
  decode 0x00000073 = .ok .ecall ∧
  decodeAdmitted 0b0000001_00000_00000_000_00000_0110011 = none ∧
  decodeAdmitted 0b0000001_00000_00000_001_00000_0010011 = none ∧
  decodeAdmitted 0x00100073 = none ∧ decodeAdmitted 0x0000000F = none

/-- R51: the fields every format shares lie at fixed positions of the word. -/
def Obligations.FieldsLieAtFixedPositions : Prop :=
  ∀ w : Word,
    (opcodeOf w).toNat = fieldOf w 0 7 ∧ (rdOf w).val = fieldOf w 7 5 ∧ (funct3Of w).toNat = fieldOf w 12 3 ∧
    (rs1Of w).val = fieldOf w 15 5 ∧ (rs2Of w).val = fieldOf w 20 5 ∧ (funct7Of w).toNat = fieldOf w 25 7

/-- R58 to R62: the value of each immediate as a signed (for U, unsigned) number made of the word's fields, its range,
and the source's example of R62. -/
def Obligations.ImmediatesHaveTheirFieldsValues : Prop :=
  (∀ w : Word,
    (immI w).toInt = Int.bmod (fieldOf w 20 12) 4096 ∧ immOk12 (immI w) ∧
    (immS w).toInt = Int.bmod (32 * fieldOf w 25 7 + fieldOf w 7 5) 4096 ∧ immOk12 (immS w) ∧
    (immB w).toInt =
      Int.bmod (4096 * fieldOf w 31 1 + 2048 * fieldOf w 7 1 + 32 * fieldOf w 25 6 + 2 * fieldOf w 8 4) 8192 ∧
    immOkB (immB w) ∧
    (immU w).toNat = 4096 * fieldOf w 12 20 ∧ immOkU (immU w) ∧
    (immJ w).toInt =
      Int.bmod (1048576 * fieldOf w 31 1 + 4096 * fieldOf w 12 8 + 2048 * fieldOf w 20 1 + 2 * fieldOf w 21 10) 2097152 ∧
    immOkJ (immJ w)) ∧
  immJ 0x0080006F = 8

/-- Decoding the encoding of a well-formed instruction gives it back, for every instruction and every operand value its
format admits (R52 to R63). -/
def Obligations.DecodeOfEncodeIsTheInstruction : Prop :=
  ∀ i : Instr, i.wf = true → decode (encode i) = .ok i

/-- Every word that decodes is the encoding of the well-formed instruction it decodes to: no bit of a word is dropped and
no two words decode to one instruction (R50 to R71). -/
def Obligations.EncodeOfDecodeIsTheWord : Prop :=
  ∀ (w : Word) (i : Instr), decode w = .ok i → i.wf = true ∧ encode i = w

/-- R64: a word decodes to the unique row of the opcode table that covers it, with the operands its fields give, or to
Illegal when no row does. -/
def Obligations.DecoderFollowsTheOpcodeTable : Prop :=
  ∀ w : Word,
    (∀ i, decodeAdmitted w = some i →
      i.admitted = true ∧ admittedRows.filter (fun r => r.covers w) = [i.op.row] ∧ operandsOf w i) ∧
    (decodeAdmitted w = none → admittedRows.filter (fun r => r.covers w) = [])

/-! ## One step -/

/-- R80: when the bytes at an aligned, in-bounds `pc` decode to an instruction, the step enters Running, forces the cell
of `x0` to 0, advances `pc` by 4, executes the instruction, and forces the cell of `x0` to 0 again. -/
def Obligations.StepRunsTheDecodedInstruction : Prop :=
  ∀ (s t : State) (i : Instr), s.runnable = true → s.pc.toNat % 4 = 0 → accessInBounds s.cfg s.pc 4 →
    decode (s.wordAt s.pc) = .ok i →
    exec i { s with run := .running, regs := s.regs.set 0 0, pc := s.pc + 4 } = .next t →
    step s = .next { t with regs := t.regs.set 0 0 }

/-- R34, R36: a word read from memory is its 4 bytes, the byte at the lowest address least significant. -/
def Obligations.WordsAreReadLittleEndian : Prop :=
  ∀ (s : State) (a : Word),
    (s.wordAt a).toNat = (s.mem.read a.toNat).toNat + 2 ^ 8 * (s.mem.read (a + 1).toNat).toNat +
      2 ^ 16 * (s.mem.read (a + 2).toNat).toNat + 2 ^ 24 * (s.mem.read (a + 3).toNat).toNat

/-- R39, R81, R143, R144: a step at a misaligned `pc` raises InstructionAddressMisaligned, whatever the bounds; at an
aligned `pc` whose 4 bytes are not all in bounds it raises InstructionAccessFault; in both `pc` is not advanced and no
word is recorded. -/
def Obligations.FetchFaultsLeavePcInPlace : Prop :=
  ∀ s : State, s.runnable = true →
    (s.pc.toNat % 4 ≠ 0 →
      ∃ t, step s = .next t ∧ trappedFrom s t s.pc ⟨.instructionAddressMisaligned s.pc, s.pc, none⟩) ∧
    (s.pc.toNat % 4 = 0 → ¬ accessInBounds s.cfg s.pc 4 →
      ∃ t, step s = .next t ∧ trappedFrom s t s.pc ⟨.instructionAccessFault s.pc, s.pc, none⟩)

/-- R142: a fetched word that the decoder maps to Illegal raises IllegalInstruction after `pc` is advanced; and which
words are Illegal: opcodes outside the ten, words with `w[1:0] != 0b11`, function fields outside every row, every 0x73
word but ECALL's, the all-zero and the all-ones word. -/
def Obligations.IllegalWordsTrap : Prop :=
  (∀ s : State, s.runnable = true → s.pc.toNat % 4 = 0 → accessInBounds s.cfg s.pc 4 →
    decodeAdmitted (s.wordAt s.pc) = none →
    ∃ t, step s = .next t ∧
      trappedFrom s t (s.pc + 4) ⟨.illegalInstruction (s.wordAt s.pc), s.pc, some (s.wordAt s.pc)⟩) ∧
  (∀ w : Word, w.toNat % 128 ∉ [0x33, 0x13, 0x03, 0x23, 0x73, 0x63, 0x67, 0x6F, 0x37, 0x17] → decodeAdmitted w = none) ∧
  (∀ w : Word, w.toNat % 4 ≠ 3 → decodeAdmitted w = none) ∧
  (∀ w : Word, (∀ r ∈ admittedRows, r.covers w = false) → decodeAdmitted w = none) ∧
  (∀ w : Word, w.toNat % 128 = 0x73 → w ≠ 0x00000073 → decodeAdmitted w = none) ∧
  decodeAdmitted 0x00000000 = none ∧ decodeAdmitted 0xFFFFFFFF = none

/-- R78: in Unloaded, Halted and Trapped a step changes no state and a run performs zero steps and changes no state;
`reset` and `load` act in every state. -/
def Obligations.CommandsActByRunState : Prop :=
  (∀ s : State, s.run = .unloaded ∨ s.run = .halted ∨ s.run = .trapped →
    step s = .next s ∧ ∀ max, ∃ r, runCommand max s = .next r ∧ r.state = s ∧ r.steps = 0 ∧ r.output = []) ∧
  (∀ s : State, perform .reset s = .next (State.resetWith s.cfg)) ∧
  (∀ (s : State) (image : Image) (entry : Word),
    loadCommand image entry s = loadCommand image entry (State.resetWith s.cfg))

/-- R79: a step has exactly one outcome, and it is a next state, which may be Trapped: the model never stops. The
parameters are assumed to meet R7's constraints; the scan of syscall 4 ends because the ECALL word being executed holds
zero bytes (R123). -/
def Obligations.EveryStepAnswersANextState : Prop :=
  ∀ s : State, s.cfg.wf → ∃ t, step s = .next t

/-- Every step keeps the invariant: canonical memory inside the buffer, the cell of `x0` at 0, a fault record exactly in
Trapped, and the diagnostic as the last output of a trapped run (R15, R24, R29, R152). -/
def Obligations.EveryStepKeepsTheInvariant : Prop :=
  ∀ s t : State, s.Inv → step s = .next t → t.Inv

/-- The state after reset meets the invariant, for every configuration that meets R7's constraints. -/
def Obligations.ResetMeetsTheInvariant : Prop :=
  (∀ c : Config, c.wf → (State.resetWith c).Inv) ∧ State.reset.Inv

/-- Every state that the host's commands reach from reset meets the invariant and keeps the parameters (R77, R78). -/
def Obligations.ReachableStatesMeetTheInvariant : Prop :=
  ∀ (c : Config) (s : State), c.wf → Reachable c s → s.Inv ∧ s.cfg = c

/-- R83, R140, R153: every step that traps is precise. No register, byte of memory or parameter changes, the diagnostic
of the record is the only output, the record holds the address of the instruction, and either it holds no word and `pc`
is the fetch address, or it holds the fetched word and `pc` is that address plus 4. -/
def Obligations.TrapsArePrecise : Prop :=
  ∀ s t : State, s.runnable = true → step s = .next t → t.run = .trapped →
    ∃ r : TrapRecord, trappedFrom s t t.pc r ∧ r.ipc = s.pc ∧
      ((r.word = none ∧ t.pc = s.pc) ∨ (r.word = some (s.wordAt s.pc) ∧ t.pc = s.pc + 4))

/-- R82: at most one register is written per step. -/
def Obligations.AtMostOneRegisterChangesPerStep : Prop :=
  ∀ s t : State, step s = .next t → ∃ rd : Reg, ∀ r : Reg, r ≠ rd → t.readReg r = s.readReg r

/-- R40, R117: only a store instruction changes a byte of memory. -/
def Obligations.OnlyStoresChangeMemory : Prop :=
  ∀ (s t : State) (a : Nat), step s = .next t → t.mem.read a ≠ s.mem.read a →
    s.runnable = true ∧ ∃ i, decode (s.wordAt s.pc) = .ok i ∧ isStore i = true

/-- R25: a step appends at most one fragment to the output and removes or rewrites nothing in it; a step that appends
executes ECALL or traps. -/
def Obligations.OutputOnlyGrows : Prop :=
  ∀ s t : State, step s = .next t →
    t.out = s.out ∨ ∃ str, t.out = s.out ++ [str] ∧ (t.run = .trapped ∨ s.wordAt s.pc = 0x00000073)

/-- R124, R167: the only step that halts a run executes the ECALL word with `a7 = 10`. -/
def Obligations.OnlySyscallTenHalts : Prop :=
  ∀ s t : State, s.runnable = true → step s = .next t → t.run = .halted →
    s.wordAt s.pc = 0x00000073 ∧ s.readReg 17 = 10 ∧ t.pc = s.pc + 4 ∧ t.out = s.out

/-- R20: every step that fetches a word which is no control transfer leaves `pc` at the instruction's address plus 4. -/
def Obligations.PcAdvancesByFour : Prop :=
  ∀ s t : State, s.runnable = true → s.pc.toNat % 4 = 0 → accessInBounds s.cfg s.pc 4 → step s = .next t →
    (∀ i, decode (s.wordAt s.pc) = .ok i → isTransfer i = false) → t.pc = s.pc + 4

/-- R15: `x0` reads as zero and ignores writes, and its cell holds 0 after every step taken. -/
def Obligations.RegisterZeroIsHardwired : Prop :=
  (∀ s : State, s.readReg 0 = 0) ∧
  (∀ (s : State) (v : Word) (r : Reg), (s.writeReg 0 v).readReg r = s.readReg r) ∧
  (∀ s t : State, s.runnable = true → step s = .next t → t.regs[0] = 0)

/-! ## The instructions, one family at a time -/

/-- R91 to R100: each register ALU instruction completes from every state with the result its rule gives, written to
`rd` and nowhere else (nowhere if `rd` is `x0`), and its word is in its row. -/
def Obligations.RegisterAluResults : Prop :=
  ∀ (s : State) (rd rs1 rs2 : Reg), let a := s.readReg rs1; let b := s.readReg rs2
    (inRow (.add rd rs1 rs2) 0xFE00707F 0x00000033 ∧
      writesOnly (.add rd rs1 rs2) s rd (BitVec.ofNat 32 (a.toNat + b.toNat))) ∧
    (inRow (.sub rd rs1 rs2) 0xFE00707F 0x40000033 ∧
      writesOnly (.sub rd rs1 rs2) s rd (BitVec.ofInt 32 (a.toInt - b.toInt))) ∧
    (inRow (.sll rd rs1 rs2) 0xFE00707F 0x00001033 ∧
      writesOnly (.sll rd rs1 rs2) s rd (BitVec.ofNat 32 (a.toNat * 2 ^ (b.toNat % 32)))) ∧
    (inRow (.slt rd rs1 rs2) 0xFE00707F 0x00002033 ∧
      writesOnly (.slt rd rs1 rs2) s rd (if a.toInt < b.toInt then 1 else 0)) ∧
    (inRow (.sltu rd rs1 rs2) 0xFE00707F 0x00003033 ∧
      writesOnly (.sltu rd rs1 rs2) s rd (if a.toNat < b.toNat then 1 else 0)) ∧
    (inRow (.xor rd rs1 rs2) 0xFE00707F 0x00004033 ∧ writesOnly (.xor rd rs1 rs2) s rd (a ^^^ b)) ∧
    (inRow (.srl rd rs1 rs2) 0xFE00707F 0x00005033 ∧
      writesOnly (.srl rd rs1 rs2) s rd (BitVec.ofNat 32 (a.toNat / 2 ^ (b.toNat % 32)))) ∧
    (inRow (.sra rd rs1 rs2) 0xFE00707F 0x40005033 ∧
      writesOnly (.sra rd rs1 rs2) s rd (BitVec.ofInt 32 (a.toInt / 2 ^ (b.toNat % 32)))) ∧
    (inRow (.or rd rs1 rs2) 0xFE00707F 0x00006033 ∧ writesOnly (.or rd rs1 rs2) s rd (a ||| b)) ∧
    (inRow (.and rd rs1 rs2) 0xFE00707F 0x00007033 ∧ writesOnly (.and rd rs1 rs2) s rd (a &&& b))

/-- R102 to R107: each register-immediate ALU instruction completes from every state with the result its rule gives, and
its word is in its row. `imm` is the extended immediate. -/
def Obligations.ImmediateAluResults : Prop :=
  ∀ (s : State) (rd rs1 : Reg) (imm : Word), let a := s.readReg rs1
    (inRow (.addi rd rs1 imm) 0x0000707F 0x00000013 ∧
      writesOnly (.addi rd rs1 imm) s rd (BitVec.ofInt 32 (a.toInt + imm.toInt))) ∧
    (inRow (.slti rd rs1 imm) 0x0000707F 0x00002013 ∧
      writesOnly (.slti rd rs1 imm) s rd (if a.toInt < imm.toInt then 1 else 0)) ∧
    (inRow (.sltiu rd rs1 imm) 0x0000707F 0x00003013 ∧
      writesOnly (.sltiu rd rs1 imm) s rd (if a.toNat < imm.toNat then 1 else 0)) ∧
    (inRow (.xori rd rs1 imm) 0x0000707F 0x00004013 ∧ writesOnly (.xori rd rs1 imm) s rd (a ^^^ imm)) ∧
    (inRow (.ori rd rs1 imm) 0x0000707F 0x00006013 ∧ writesOnly (.ori rd rs1 imm) s rd (a ||| imm)) ∧
    (inRow (.andi rd rs1 imm) 0x0000707F 0x00007013 ∧ writesOnly (.andi rd rs1 imm) s rd (a &&& imm))

/-- R108 to R110: each shift by an immediate completes from every state with the result its rule gives, and its word is
in its row; a word with another `w[31:25]` at funct3 001 or 101 is Illegal (R67). -/
def Obligations.ShiftImmediateResults : Prop :=
  (∀ (s : State) (rd rs1 : Reg) (shamt : BitVec 5), let a := s.readReg rs1
    (inRow (.slli rd rs1 shamt) 0xFE00707F 0x00001013 ∧
      writesOnly (.slli rd rs1 shamt) s rd (BitVec.ofNat 32 (a.toNat * 2 ^ shamt.toNat))) ∧
    (inRow (.srli rd rs1 shamt) 0xFE00707F 0x00005013 ∧
      writesOnly (.srli rd rs1 shamt) s rd (BitVec.ofNat 32 (a.toNat / 2 ^ shamt.toNat))) ∧
    (inRow (.srai rd rs1 shamt) 0xFE00707F 0x40005013 ∧
      writesOnly (.srai rd rs1 shamt) s rd (BitVec.ofInt 32 (a.toInt / 2 ^ shamt.toNat)))) ∧
  (∀ w : Word, fieldOf w 0 7 = 0x13 →
    (fieldOf w 12 3 = 1 → fieldOf w 25 7 ≠ 0 → decodeAdmitted w = none) ∧
    (fieldOf w 12 3 = 5 → fieldOf w 25 7 ≠ 0 → fieldOf w 25 7 ≠ 0x20 → decodeAdmitted w = none))

/-- R111 to R116: each load, in all its forms, from base plus displacement modulo 2^32: the extended value written to
`rd` and nowhere else, or, under the option and before the bounds check, LoadAddressMisaligned, or LoadAccessFault; and
its word is in its row. -/
def Obligations.LoadResults : Prop :=
  ∀ (s : State) (rd rs1 : Reg) (imm : Word), let a := s.readReg rs1 + imm
    let b0 := s.mem.read a.toNat; let b1 := s.mem.read (a + 1).toNat
    let b2 := s.mem.read (a + 2).toNat; let b3 := s.mem.read (a + 3).toNat
    (inRow (.lb rd rs1 imm) 0x0000707F 0x00000003 ∧ loadsAs (.lb rd rs1 imm) s rd a 1 (BitVec.ofInt 32 b0.toInt)) ∧
    (inRow (.lh rd rs1 imm) 0x0000707F 0x00001003 ∧
      loadsAs (.lh rd rs1 imm) s rd a 2 (BitVec.ofInt 32 (Int.bmod (b0.toNat + 2 ^ 8 * b1.toNat) (2 ^ 16)))) ∧
    (inRow (.lw rd rs1 imm) 0x0000707F 0x00002003 ∧
      loadsAs (.lw rd rs1 imm) s rd a 4
        (BitVec.ofNat 32 (b0.toNat + 2 ^ 8 * b1.toNat + 2 ^ 16 * b2.toNat + 2 ^ 24 * b3.toNat))) ∧
    (inRow (.lbu rd rs1 imm) 0x0000707F 0x00004003 ∧ loadsAs (.lbu rd rs1 imm) s rd a 1 (BitVec.ofNat 32 b0.toNat)) ∧
    (inRow (.lhu rd rs1 imm) 0x0000707F 0x00005003 ∧
      loadsAs (.lhu rd rs1 imm) s rd a 2 (BitVec.ofNat 32 (b0.toNat + 2 ^ 8 * b1.toNat)))

/-- R117 to R120: each store, in all its forms, at base plus displacement modulo 2^32: the low bytes of `x[rs2]`, least
significant first, and no other byte; or, under the option and before the bounds check, StoreAddressMisaligned, or
StoreAccessFault, with no byte written; and its word is in its row. -/
def Obligations.StoreResults : Prop :=
  ∀ (s : State) (rs1 rs2 : Reg) (imm : Word), let a := s.readReg rs1 + imm; let v := s.readReg rs2
    (inRow (.sb rs1 rs2 imm) 0x0000707F 0x00000023 ∧ storesAs (.sb rs1 rs2 imm) s a 1 v) ∧
    (inRow (.sh rs1 rs2 imm) 0x0000707F 0x00001023 ∧ storesAs (.sh rs1 rs2 imm) s a 2 v) ∧
    (inRow (.sw rs1 rs2 imm) 0x0000707F 0x00002023 ∧ storesAs (.sw rs1 rs2 imm) s a 4 v)

/-- R131 to R136: each branch completes from every state: `pc` becomes the branch's own address plus the offset exactly
when its condition holds, and nothing else changes; and its word is in its row. -/
def Obligations.BranchResults : Prop :=
  ∀ (s : State) (rs1 rs2 : Reg) (imm ipc : Word), s.pc = ipc + 4 → let a := s.readReg rs1; let b := s.readReg rs2
    (inRow (.beq rs1 rs2 imm) 0x0000707F 0x00000063 ∧ branchesOn (.beq rs1 rs2 imm) s ipc imm (a = b)) ∧
    (inRow (.bne rs1 rs2 imm) 0x0000707F 0x00001063 ∧ branchesOn (.bne rs1 rs2 imm) s ipc imm (a ≠ b)) ∧
    (inRow (.blt rs1 rs2 imm) 0x0000707F 0x00004063 ∧ branchesOn (.blt rs1 rs2 imm) s ipc imm (a.toInt < b.toInt)) ∧
    (inRow (.bge rs1 rs2 imm) 0x0000707F 0x00005063 ∧ branchesOn (.bge rs1 rs2 imm) s ipc imm (b.toInt ≤ a.toInt)) ∧
    (inRow (.bltu rs1 rs2 imm) 0x0000707F 0x00006063 ∧ branchesOn (.bltu rs1 rs2 imm) s ipc imm (a.toNat < b.toNat)) ∧
    (inRow (.bgeu rs1 rs2 imm) 0x0000707F 0x00007063 ∧ branchesOn (.bgeu rs1 rs2 imm) s ipc imm (b.toNat ≤ a.toNat))

/-- R129, R130: JAL and JALR complete from every state: the link `ipc + 4` in `rd` and the target in `pc`, read before
the link is written; JALR clears bit 0 of its target; their words are in their rows, and a word of opcode 0x67 with
another funct3 is Illegal. -/
def Obligations.JumpResults : Prop :=
  (∀ (s : State) (rd rs1 : Reg) (imm ipc : Word), s.pc = ipc + 4 →
    (inRow (.jal rd imm) 0x0000007F 0x0000006F ∧ jumpsTo (.jal rd imm) s rd ipc (ipc + imm)) ∧
    (inRow (.jalr rd rs1 imm) 0x0000707F 0x00000067 ∧
      jumpsTo (.jalr rd rs1 imm) s rd ipc (BitVec.ofNat 32 (2 * ((s.readReg rs1 + imm).toNat / 2))))) ∧
  (∀ w : Word, fieldOf w 0 7 = 0x67 → fieldOf w 12 3 ≠ 0 → decodeAdmitted w = none)

/-- R138, R139: LUI and AUIPC complete from every state: `imm20 << 12`, and the instruction's own address plus it; their
words are in their rows. -/
def Obligations.UpperImmediateResults : Prop :=
  ∀ (s : State) (rd : Reg) (imm20 : BitVec 20) (ipc : Word), s.pc = ipc + 4 →
    let imm := BitVec.ofNat 32 (imm20.toNat * 2 ^ 12)
    (inRow (.lui rd imm) 0x0000007F 0x00000037 ∧ decode (encode (.lui rd imm)) = .ok (.lui rd imm) ∧
      writesOnly (.lui rd imm) s rd imm) ∧
    (inRow (.auipc rd imm) 0x0000007F 0x00000017 ∧ decode (encode (.auipc rd imm)) = .ok (.auipc rd imm) ∧
      writesOnly (.auipc rd imm) s rd (ipc + imm))

/-- R121, R122, R124 to R126: ECALL by the whole value of `a7`: 1 prints the integer `a0`, 10 halts, 11 prints the
character `a0` (the open text `CHAR_OUT` outside 0..127), any number but these and 4 raises UnsupportedSyscall; no
service writes a register, memory or `pc`. -/
def Obligations.EcallServices : Prop :=
  ∀ s : State, let n := s.readReg 17; let v := s.readReg 10
    encode .ecall = 0x00000073 ∧
    (n = 1 → ecallPrints s (decimal v.toInt)) ∧
    (n = 10 → exec .ecall s = .next { s with run := .halted }) ∧
    (n = 11 → v.toNat < 128 → ecallPrints s [Char.ofNat v.toNat]) ∧
    (n = 11 → 128 ≤ v.toNat → ecallPrints s (Config.charOut v)) ∧
    (n ≠ 1 → n ≠ 4 → n ≠ 10 → n ≠ 11 → trapsWith .ecall s (.unsupportedSyscall n))

/-- R123: syscall 4 prints the bytes from `a0` up to the first zero byte, as one fragment; when the scan meets an
address out of bounds first, it raises LoadAccessFault at that address and appends nothing of the string. -/
def Obligations.EcallPrintsAString : Prop :=
  ∀ (s : State) (bytes : List Byte), s.cfg.wf → s.readReg 17 = 4 → let v := s.readReg 10
    (∀ k (h : k < bytes.length), bytes[k] ≠ 0 ∧ (v + BitVec.ofNat 32 k).toNat < s.cfg.memSize ∧
      s.mem.read (v + BitVec.ofNat 32 k).toNat = bytes[k]) →
    let stop := v + BitVec.ofNat 32 bytes.length
    (stop.toNat < s.cfg.memSize → s.mem.read stop.toNat = 0 →
      ecallPrints s (bytes.flatMap fun b =>
        if b.toNat < 128 then [Char.ofNat b.toNat] else Config.charOut (BitVec.ofNat 32 b.toNat))) ∧
    (s.cfg.memSize ≤ stop.toNat → trapsWith .ecall s (.loadAccessFault stop))

/-- R122: syscall 1 prints the signed decimal spelling of `a0` and nothing else: a `-` exactly for negatives, then digits
without a leading zero (one `0` for zero) whose value is the number's absolute value. -/
def Obligations.IntegersAreSpelledInDecimal : Prop :=
  ∀ s : State, s.readReg 17 = 1 → let v := s.readReg 10
    ∃ ds : List Nat,
      ds ≠ [] ∧ (∀ d ∈ ds, d < 10) ∧ (ds.head? = some 0 → ds = [0]) ∧
      ds.foldl (fun n d => 10 * n + d) 0 = v.toInt.natAbs ∧
      ecallPrints s ((if v.toInt < 0 then ['-'] else []) ++ ds.map (fun d => Char.ofNat (48 + d)))

/-- R46, R70, R142: the three rows that are not admitted trap with IllegalInstruction and their own word, from every
state; FENCE's words are those of opcode 0x0F, EBREAK's is 0x00100073, the rest have opcode 0x73. -/
def Obligations.NotAdmittedInstructionsTrap : Prop :=
  ∀ (s : State) (bits : BitVec 25),
    (BitVec.toNat (encode (.fence bits)) = bits.toNat * 128 + 0x0F ∧
      trapsWith (.fence bits) s (.illegalInstruction (encode (.fence bits)))) ∧
    (encode .ebreak = 0x00100073 ∧ trapsWith .ebreak s (.illegalInstruction 0x00100073)) ∧
    (BitVec.toNat (encode (.systemOther bits)) = bits.toNat * 128 + 0x73 ∧
      trapsWith (.systemOther bits) s (.illegalInstruction (encode (.systemOther bits))))

/-! ## Memory seen by several accesses -/

/-- R37: a word stored and loaded back at the same address is the same word; the halfword at its address plus 2 is its
upper half. -/
def Obligations.StoredWordLoadsBack : Prop :=
  ∀ (s : State) (rs1 rs2 rd : Reg) (imm : Word), rd ≠ 0 → let a := s.readReg rs1 + imm
    ¬ accessMisaligned s.cfg a 4 → accessInBounds s.cfg a 4 →
    ∃ t, exec (.sw rs1 rs2 imm) s = .next t ∧
      (∃ u, exec (.lw rd rs1 imm) t = .next u ∧ u.readReg rd = s.readReg rs2) ∧
      (∃ u, exec (.lhu rd rs1 (imm + 2)) t = .next u ∧
        u.readReg rd = BitVec.ofNat 32 ((s.readReg rs2).toNat / 2 ^ 16))

/-- R48, R169: a store into the next instruction's bytes changes the word the very next step fetches. -/
def Obligations.StoreIntoTheNextInstructionIsFetched : Prop :=
  ∀ (s : State) (rs1 rs2 : Reg) (imm : Word), s.runnable = true → s.pc.toNat % 4 = 0 → accessInBounds s.cfg s.pc 4 →
    decode (s.wordAt s.pc) = .ok (.sw rs1 rs2 imm) →
    s.readReg rs1 + imm = s.pc + 4 → accessInBounds s.cfg (s.pc + 4) 4 →
    ∃ t, step s = .next t ∧ t.run = .running ∧ t.pc = s.pc + 4 ∧ t.wordAt t.pc = s.readReg rs2

/-! ## The host's commands -/

/-- R163: `reset`, from every state, zeroes every register, `pc` and every byte of memory, and leaves Unloaded, no fault
and no output; then a step changes nothing and a run performs zero steps. -/
def Obligations.ResetZeroesTheState : Prop :=
  ∀ s : State, ∃ t, perform .reset s = .next t ∧ (∀ r : Reg, t.regs[r] = 0) ∧ t.pc = 0 ∧ (∀ a, t.mem.read a = 0) ∧
    t.run = .unloaded ∧ t.fault = none ∧ t.out = [] ∧ step t = .next t ∧
    ∀ max, ∃ r, runCommand max t = .next r ∧ r.state = t ∧ r.steps = 0

/-- R164, R166: `load` of an image inside memory without two bytes at one address places it over zeroed memory, sets
`sp` to `STACK_TOP`, `pc` to `ENTRY`, every other register to 0 and the run state to Loaded; any other image is refused
and changes no state. -/
def Obligations.LoadPlacesTheImageOrRefuses : Prop :=
  ∀ (s : State) (image : Image) (entry : Word),
    ((∀ c ∈ image, c.1 < s.cfg.memSize) → (image.map Prod.fst).Nodup →
      ∃ t, loadCommand image entry s = .ok t ∧ perform (.load image entry) s = .next t ∧
        (∀ c ∈ image, t.mem.read c.1 = c.2) ∧ (∀ a, a ∉ image.map Prod.fst → t.mem.read a = 0) ∧
        (∀ r : Reg, t.readReg r = if r = 2 then BitVec.ofNat 32 s.cfg.stackTop else 0) ∧
        t.pc = entry ∧ t.run = .loaded ∧ t.fault = none ∧ t.out = [] ∧ t.cfg = s.cfg) ∧
    ((∃ c ∈ image, s.cfg.memSize ≤ c.1) ∨ ¬ (image.map Prod.fst).Nodup →
      (∃ r, loadCommand image entry s = .error r) ∧ perform (.load image entry) s = .next s)

/-- R84, R85: what `run(max)` reports: it takes at most `max` steps of the machine, each from a run state that has steps,
fewer than `max` only when the run ended or no program is loaded, its final state is the state after those steps with LimitExceeded in place of a state that could go
on, and its output is what those steps appended. `run(0)` performs no step and reports the limit.
A run always answers. Which outcome `run` reports in Unloaded is the model's choice (log 11): the clauses on the outcome
do not speak of it. -/
def Obligations.RunCountsItsSteps : Prop :=
  (∀ (s : State) (max : Nat) (r : RunResult), runCommand max s = .next r →
    r.steps ≤ max ∧
    (r.steps < max → r.state.run = .halted ∨ r.state.run = .trapped ∨ r.state.run = .unloaded) ∧
    (∃ t, Sys2Proof.core.run r.steps s = .next t ∧
      r.state = { t with run := if t.runnable then .limitExceeded else t.run }) ∧
    (∀ k, k < r.steps → ∃ t, Sys2Proof.core.run k s = .next t ∧ State.runnable t = true) ∧
    (r.state.run ≠ .unloaded →
      (r.outcome = some .instructionLimitExceeded ↔ r.state.run = .limitExceeded) ∧
      (r.outcome = some .halted ↔ r.state.run = .halted) ∧ (r.outcome = some .trapped ↔ r.state.run = .trapped)) ∧
    r.state.out = s.out ++ r.output) ∧
  (∀ s : State, s.runnable = true →
    ∃ r, runCommand 0 s = .next r ∧ r.steps = 0 ∧ r.outcome = some .instructionLimitExceeded ∧
      r.state = { s with run := .limitExceeded }) ∧
  (∀ (s : State) (max : Nat), s.cfg.wf → ∃ r, runCommand max s = .next r)

/-- R86: two runs one after the other are as one run of both budgets: same final state, the steps and the output added
up, the second one's outcome; and a step from LimitExceeded is the step that would have followed. -/
def Obligations.TwoRunsAreAsOne : Prop :=
  (∀ (s : State) (m n : Nat) (r q : RunResult), runCommand m s = .next r → runCommand n r.state = .next q →
    ∃ u, runCommand (m + n) s = .next u ∧ u.state = q.state ∧ u.steps = r.steps + q.steps ∧
      u.output = r.output ++ q.output ∧ u.outcome = q.outcome) ∧
  (∀ s : State, s.runnable = true → step { s with run := .limitExceeded } = step s)

/-- The model's own `withFetchWord` (log 10): the next step fetches exactly the given word, nothing but memory changes
when the state could already fetch, and when the word decodes the step runs its instruction. -/
def Obligations.WithFetchWordRunsTheWord : Prop :=
  ∀ (s : State) (nbits w : Nat), s.cfg.wf → let t := s.withFetchWord nbits w
    t.runnable = true ∧ t.pc.toNat % 4 = 0 ∧ accessInBounds t.cfg t.pc 4 ∧
    t.wordAt t.pc = BitVec.ofNat 32 (w % 2 ^ nbits) ∧
    (∀ b, ¬ covers t.pc 4 b → t.mem.read b = s.mem.read b) ∧
    (s.runnable = true → s.pc.toNat % 4 = 0 → accessInBounds s.cfg s.pc 4 → t = { s with mem := t.mem }) ∧
    (∀ i, decodeTableWord nbits w = some i → step t = endStep (exec i t.atExecute))

/-- R75: the expansion of `li rd, imm` is encodable and builds the constant modulo 2^32, for every integer. The clause on
`la rd, L` is the model's own reading of R75 (log 16): its offset is counted from the address of the first instruction and
split as `call` splits it, and the expansion builds that address plus the offset. With `rd = x0` nothing is written; no
other register changes. -/
def Obligations.LoadImmediateBuildsTheConstant : Prop :=
  ∀ (s : State) (rd : Reg) (imm : Int) (offset : Word),
    (∀ i ∈ (Pseudo.li rd imm).expand, i.wf = true) ∧
    (∃ t, execAll (Pseudo.li rd imm).expand s = .next t ∧
      ∀ r : Reg, t.readReg r = if r = 0 then 0 else if r = rd then BitVec.ofInt 32 imm else s.readReg r) ∧
    (∃ t, execAll (Pseudo.la rd offset).expand s = .next t ∧
      ∀ r : Reg, t.readReg r = if r = 0 then 0 else if r = rd then s.pc - 4 + offset else s.readReg r)

/-- R141: the numeric code of each cause. -/
def Obligations.CausesHaveTheirCodes : Prop :=
  ∀ v : Word,
    (Cause.instructionAddressMisaligned v).code = 0 ∧ (Cause.instructionAccessFault v).code = 1 ∧
    (Cause.illegalInstruction v).code = 2 ∧ (Cause.loadAddressMisaligned v).code = 4 ∧
    (Cause.loadAccessFault v).code = 5 ∧ (Cause.storeAddressMisaligned v).code = 6 ∧
    (Cause.storeAccessFault v).code = 7 ∧ (Cause.unsupportedSyscall v).code = 24

/-- R76's last sentence, with R64: the core relies on no check of an assembler. A word of memory that an opcode-table row
covers decodes to that row's instruction and is executed, whatever placed it there and whatever its operands are. -/
def Obligations.WordsExecuteWhateverPlacedThem : Prop :=
  ∀ (s : State) (r : TableRow), s.runnable = true → s.pc.toNat % 4 = 0 → accessInBounds s.cfg s.pc 4 →
    r ∈ admittedRows → s.wordAt s.pc &&& r.mask = r.pattern →
    ∃ i, decodeAdmitted (s.wordAt s.pc) = some i ∧ i.op = r.op ∧ operandsOf (s.wordAt s.pc) i ∧
      step s = endStep (exec i s.atExecute)
end

