-- ==== Sys2Proof/Laws/Decode.lean ====
section
/-! SUPPORT. What the placed fields of an encoded word read back as, format by format, and when an immediate is
its own extension. -/

namespace Sys2Proof

/-- One bit of a placed field. -/
theorem getLsbD_placeAt {n : Nat} (lo : Nat) (v : BitVec n) (i : Nat) :
    (placeAt lo v).getLsbD i = (decide (i < 32) && decide (lo ≤ i) && v.getLsbD (i - lo)) := by
  simp only [placeAt, BitVec.getLsbD_shiftLeft, BitVec.getLsbD_setWidth]
  by_cases h2 : lo ≤ i
  · have : ¬ i < lo := by omega
    simp only [h2, this, decide_true, decide_false, Bool.not_false, Bool.and_true]
    by_cases h1 : i < 32
    · have : i - lo < 32 := by omega
      simp [h1, this]
    · simp [h1]
  · have : i < lo := by omega
    simp [h2, this]

/-- A placed field as a number. -/
theorem toNat_placeAt {n : Nat} (lo : Nat) (v : BitVec n) (h : n + lo ≤ 32) :
    (placeAt lo v).toNat = v.toNat * 2 ^ lo := by
  have hv : v.toNat * 2 ^ lo < 2 ^ 32 :=
    calc v.toNat * 2 ^ lo < 2 ^ n * 2 ^ lo := Nat.mul_lt_mul_of_pos_right v.isLt (Nat.two_pow_pos lo)
      _ = 2 ^ (n + lo) := (Nat.pow_add ..).symm
      _ ≤ 2 ^ 32 := Nat.pow_le_pow_right (by omega) h
  have hn : v.toNat < 2 ^ 32 := Nat.lt_of_lt_of_le v.isLt (Nat.pow_le_pow_right (by omega) (by omega))
  rw [placeAt, BitVec.toNat_shiftLeft, BitVec.toNat_setWidth, Nat.shiftLeft_eq, Nat.mod_eq_of_lt hn, Nat.mod_eq_of_lt hv]

/-- The word of 4 bytes as a number (R34). -/
theorem toNat_littleEndian (b0 b1 b2 b3 : Byte) :
    (littleEndian b0 b1 b2 b3).toNat = b0.toNat + 256 * b1.toNat + 65536 * b2.toNat + 16777216 * b3.toNat := by
  have h0 := b0.isLt
  have h1 := b1.isLt
  have h2 := b2.isLt
  have join (hi lo i : Nat) (h : lo < 2 ^ i) : lo ||| hi * 2 ^ i = hi * 2 ^ i + lo := by
    rw [Nat.or_comm, ← Nat.shiftLeft_eq, Nat.shiftLeft_add_eq_or_of_lt h]
  simp only [littleEndian, BitVec.toNat_or]
  rw [toNat_placeAt 0 b0 (by omega), toNat_placeAt 8 b1 (by omega), toNat_placeAt 16 b2 (by omega),
    toNat_placeAt 24 b3 (by omega), Nat.pow_zero, Nat.mul_one, join _ _ 8 (by omega), join _ _ 16 (by omega),
    join _ _ 24 (by omega)]
  omega

/-- A register's field reads back as its number. -/
@[simp] theorem toFin_regBits (r : Reg) : (regBits r).toFin = r := rfl

/-! ## encodeR -/

@[simp] theorem opcodeOf_encodeR (f7 : BitVec 7) (r2 : BitVec 5) (r1 : Reg) (f3 : BitVec 3) (d : Reg) (op : BitVec 7) : opcodeOf (encodeR f7 r2 r1 f3 d op) = op := by
  apply BitVec.eq_of_getLsbD_eq
  intro i hi
  simp only [opcodeOf, encodeR, BitVec.getLsbD_extractLsb', BitVec.getLsbD_or, getLsbD_placeAt]
  interval_cases i <;> simp

@[simp] theorem funct3Of_encodeR (f7 : BitVec 7) (r2 : BitVec 5) (r1 : Reg) (f3 : BitVec 3) (d : Reg) (op : BitVec 7) : funct3Of (encodeR f7 r2 r1 f3 d op) = f3 := by
  apply BitVec.eq_of_getLsbD_eq
  intro i hi
  simp only [funct3Of, encodeR, BitVec.getLsbD_extractLsb', BitVec.getLsbD_or, getLsbD_placeAt]
  interval_cases i <;> simp

@[simp] theorem funct7Of_encodeR (f7 : BitVec 7) (r2 : BitVec 5) (r1 : Reg) (f3 : BitVec 3) (d : Reg) (op : BitVec 7) : funct7Of (encodeR f7 r2 r1 f3 d op) = f7 := by
  apply BitVec.eq_of_getLsbD_eq
  intro i hi
  simp only [funct7Of, encodeR, BitVec.getLsbD_extractLsb', BitVec.getLsbD_or, getLsbD_placeAt]
  interval_cases i <;> simp

@[simp] theorem shamtOf_encodeR (f7 : BitVec 7) (r2 : BitVec 5) (r1 : Reg) (f3 : BitVec 3) (d : Reg) (op : BitVec 7) : shamtOf (encodeR f7 r2 r1 f3 d op) = r2 := by
  apply BitVec.eq_of_getLsbD_eq
  intro i hi
  simp only [shamtOf, encodeR, BitVec.getLsbD_extractLsb', BitVec.getLsbD_or, getLsbD_placeAt]
  interval_cases i <;> simp

@[simp] theorem rs1Of_encodeR (f7 : BitVec 7) (r2 : BitVec 5) (r1 : Reg) (f3 : BitVec 3) (d : Reg) (op : BitVec 7) : rs1Of (encodeR f7 r2 r1 f3 d op) = r1 := by
  have : (encodeR f7 r2 r1 f3 d op).extractLsb' 15 5 = regBits r1 := by
    apply BitVec.eq_of_getLsbD_eq
    intro i hi
    simp only [encodeR, BitVec.getLsbD_extractLsb', BitVec.getLsbD_or, getLsbD_placeAt]
    interval_cases i <;> simp
  rw [rs1Of, this, toFin_regBits]

@[simp] theorem rdOf_encodeR (f7 : BitVec 7) (r2 : BitVec 5) (r1 : Reg) (f3 : BitVec 3) (d : Reg) (op : BitVec 7) : rdOf (encodeR f7 r2 r1 f3 d op) = d := by
  have : (encodeR f7 r2 r1 f3 d op).extractLsb' 7 5 = regBits d := by
    apply BitVec.eq_of_getLsbD_eq
    intro i hi
    simp only [encodeR, BitVec.getLsbD_extractLsb', BitVec.getLsbD_or, getLsbD_placeAt]
    interval_cases i <;> simp
  rw [rdOf, this, toFin_regBits]

/-! ## encodeI -/

@[simp] theorem opcodeOf_encodeI (imm : Word) (r1 : Reg) (f3 : BitVec 3) (d : Reg) (op : BitVec 7) : opcodeOf (encodeI imm r1 f3 d op) = op := by
  apply BitVec.eq_of_getLsbD_eq
  intro i hi
  simp only [opcodeOf, encodeI, BitVec.getLsbD_extractLsb', BitVec.getLsbD_or, getLsbD_placeAt]
  interval_cases i <;> simp

@[simp] theorem funct3Of_encodeI (imm : Word) (r1 : Reg) (f3 : BitVec 3) (d : Reg) (op : BitVec 7) : funct3Of (encodeI imm r1 f3 d op) = f3 := by
  apply BitVec.eq_of_getLsbD_eq
  intro i hi
  simp only [funct3Of, encodeI, BitVec.getLsbD_extractLsb', BitVec.getLsbD_or, getLsbD_placeAt]
  interval_cases i <;> simp

@[simp] theorem rs1Of_encodeI (imm : Word) (r1 : Reg) (f3 : BitVec 3) (d : Reg) (op : BitVec 7) : rs1Of (encodeI imm r1 f3 d op) = r1 := by
  have : (encodeI imm r1 f3 d op).extractLsb' 15 5 = regBits r1 := by
    apply BitVec.eq_of_getLsbD_eq
    intro i hi
    simp only [encodeI, BitVec.getLsbD_extractLsb', BitVec.getLsbD_or, getLsbD_placeAt]
    interval_cases i <;> simp
  rw [rs1Of, this, toFin_regBits]

@[simp] theorem rdOf_encodeI (imm : Word) (r1 : Reg) (f3 : BitVec 3) (d : Reg) (op : BitVec 7) : rdOf (encodeI imm r1 f3 d op) = d := by
  have : (encodeI imm r1 f3 d op).extractLsb' 7 5 = regBits d := by
    apply BitVec.eq_of_getLsbD_eq
    intro i hi
    simp only [encodeI, BitVec.getLsbD_extractLsb', BitVec.getLsbD_or, getLsbD_placeAt]
    interval_cases i <;> simp
  rw [rdOf, this, toFin_regBits]

/-! ## encodeS -/

@[simp] theorem opcodeOf_encodeS (imm : Word) (r2 r1 : Reg) (f3 : BitVec 3) (op : BitVec 7) : opcodeOf (encodeS imm r2 r1 f3 op) = op := by
  apply BitVec.eq_of_getLsbD_eq
  intro i hi
  simp only [opcodeOf, encodeS, BitVec.getLsbD_extractLsb', BitVec.getLsbD_or, getLsbD_placeAt]
  interval_cases i <;> simp

@[simp] theorem funct3Of_encodeS (imm : Word) (r2 r1 : Reg) (f3 : BitVec 3) (op : BitVec 7) : funct3Of (encodeS imm r2 r1 f3 op) = f3 := by
  apply BitVec.eq_of_getLsbD_eq
  intro i hi
  simp only [funct3Of, encodeS, BitVec.getLsbD_extractLsb', BitVec.getLsbD_or, getLsbD_placeAt]
  interval_cases i <;> simp

@[simp] theorem rs1Of_encodeS (imm : Word) (r2 r1 : Reg) (f3 : BitVec 3) (op : BitVec 7) : rs1Of (encodeS imm r2 r1 f3 op) = r1 := by
  have : (encodeS imm r2 r1 f3 op).extractLsb' 15 5 = regBits r1 := by
    apply BitVec.eq_of_getLsbD_eq
    intro i hi
    simp only [encodeS, BitVec.getLsbD_extractLsb', BitVec.getLsbD_or, getLsbD_placeAt]
    interval_cases i <;> simp
  rw [rs1Of, this, toFin_regBits]

@[simp] theorem rs2Of_encodeS (imm : Word) (r2 r1 : Reg) (f3 : BitVec 3) (op : BitVec 7) : rs2Of (encodeS imm r2 r1 f3 op) = r2 := by
  have : (encodeS imm r2 r1 f3 op).extractLsb' 20 5 = regBits r2 := by
    apply BitVec.eq_of_getLsbD_eq
    intro i hi
    simp only [encodeS, BitVec.getLsbD_extractLsb', BitVec.getLsbD_or, getLsbD_placeAt]
    interval_cases i <;> simp
  rw [rs2Of, this, toFin_regBits]

/-! ## encodeB -/

@[simp] theorem opcodeOf_encodeB (imm : Word) (r2 r1 : Reg) (f3 : BitVec 3) (op : BitVec 7) : opcodeOf (encodeB imm r2 r1 f3 op) = op := by
  apply BitVec.eq_of_getLsbD_eq
  intro i hi
  simp only [opcodeOf, encodeB, BitVec.getLsbD_extractLsb', BitVec.getLsbD_or, getLsbD_placeAt]
  interval_cases i <;> simp

@[simp] theorem funct3Of_encodeB (imm : Word) (r2 r1 : Reg) (f3 : BitVec 3) (op : BitVec 7) : funct3Of (encodeB imm r2 r1 f3 op) = f3 := by
  apply BitVec.eq_of_getLsbD_eq
  intro i hi
  simp only [funct3Of, encodeB, BitVec.getLsbD_extractLsb', BitVec.getLsbD_or, getLsbD_placeAt]
  interval_cases i <;> simp

@[simp] theorem rs1Of_encodeB (imm : Word) (r2 r1 : Reg) (f3 : BitVec 3) (op : BitVec 7) : rs1Of (encodeB imm r2 r1 f3 op) = r1 := by
  have : (encodeB imm r2 r1 f3 op).extractLsb' 15 5 = regBits r1 := by
    apply BitVec.eq_of_getLsbD_eq
    intro i hi
    simp only [encodeB, BitVec.getLsbD_extractLsb', BitVec.getLsbD_or, getLsbD_placeAt]
    interval_cases i <;> simp
  rw [rs1Of, this, toFin_regBits]

@[simp] theorem rs2Of_encodeB (imm : Word) (r2 r1 : Reg) (f3 : BitVec 3) (op : BitVec 7) : rs2Of (encodeB imm r2 r1 f3 op) = r2 := by
  have : (encodeB imm r2 r1 f3 op).extractLsb' 20 5 = regBits r2 := by
    apply BitVec.eq_of_getLsbD_eq
    intro i hi
    simp only [encodeB, BitVec.getLsbD_extractLsb', BitVec.getLsbD_or, getLsbD_placeAt]
    interval_cases i <;> simp
  rw [rs2Of, this, toFin_regBits]

/-! ## encodeU -/

@[simp] theorem opcodeOf_encodeU (imm : Word) (d : Reg) (op : BitVec 7) : opcodeOf (encodeU imm d op) = op := by
  apply BitVec.eq_of_getLsbD_eq
  intro i hi
  simp only [opcodeOf, encodeU, BitVec.getLsbD_extractLsb', BitVec.getLsbD_or, getLsbD_placeAt]
  interval_cases i <;> simp

@[simp] theorem rdOf_encodeU (imm : Word) (d : Reg) (op : BitVec 7) : rdOf (encodeU imm d op) = d := by
  have : (encodeU imm d op).extractLsb' 7 5 = regBits d := by
    apply BitVec.eq_of_getLsbD_eq
    intro i hi
    simp only [encodeU, BitVec.getLsbD_extractLsb', BitVec.getLsbD_or, getLsbD_placeAt]
    interval_cases i <;> simp
  rw [rdOf, this, toFin_regBits]

/-! ## encodeJ -/

@[simp] theorem opcodeOf_encodeJ (imm : Word) (d : Reg) (op : BitVec 7) : opcodeOf (encodeJ imm d op) = op := by
  apply BitVec.eq_of_getLsbD_eq
  intro i hi
  simp only [opcodeOf, encodeJ, BitVec.getLsbD_extractLsb', BitVec.getLsbD_or, getLsbD_placeAt]
  interval_cases i <;> simp

@[simp] theorem rdOf_encodeJ (imm : Word) (d : Reg) (op : BitVec 7) : rdOf (encodeJ imm d op) = d := by
  have : (encodeJ imm d op).extractLsb' 7 5 = regBits d := by
    apply BitVec.eq_of_getLsbD_eq
    intro i hi
    simp only [encodeJ, BitVec.getLsbD_extractLsb', BitVec.getLsbD_or, getLsbD_placeAt]
    interval_cases i <;> simp
  rw [rdOf, this, toFin_regBits]

/-! ## encodeRaw -/

@[simp] theorem opcodeOf_encodeRaw (bits : BitVec 25) (op : BitVec 7) : opcodeOf (encodeRaw bits op) = op := by
  apply BitVec.eq_of_getLsbD_eq
  intro i hi
  simp only [opcodeOf, encodeRaw, BitVec.getLsbD_extractLsb', BitVec.getLsbD_or, getLsbD_placeAt]
  interval_cases i <;> simp

@[simp] theorem upperBitsOf_encodeRaw (bits : BitVec 25) (op : BitVec 7) : upperBitsOf (encodeRaw bits op) = bits := by
  apply BitVec.eq_of_getLsbD_eq
  intro i hi
  simp only [upperBitsOf, encodeRaw, BitVec.getLsbD_extractLsb', BitVec.getLsbD_or, getLsbD_placeAt]
  interval_cases i <;> simp

/-! ## Immediates of encoded words (R58 to R62) -/

/-- An immediate in the 12-bit range is its low 12 bits, sign-extended. -/
theorem signExtend_low12 {imm : Word} (h : immOk12 imm) : (imm.extractLsb' 0 12).signExtend 32 = imm := by
  have hl := imm.isLt
  apply BitVec.eq_of_toInt_eq
  simp only [immOk12, BitVec.toInt_eq_toNat_cond] at h
  rw [BitVec.toInt_signExtend_of_le (by omega)]
  simp only [BitVec.toInt_eq_toNat_cond, BitVec.extractLsb'_toNat, Nat.shiftRight_zero]
  split at h <;> split <;> omega

/-- An immediate in the B range is its low 13 bits, sign-extended. -/
theorem signExtend_low13 {imm : Word} (h : immOkB imm) : (imm.extractLsb' 0 13).signExtend 32 = imm := by
  have hl := imm.isLt
  apply BitVec.eq_of_toInt_eq
  simp only [immOkB, BitVec.toInt_eq_toNat_cond] at h
  rw [BitVec.toInt_signExtend_of_le (by omega)]
  simp only [BitVec.toInt_eq_toNat_cond, BitVec.extractLsb'_toNat, Nat.shiftRight_zero]
  split at h <;> split <;> omega

/-- An immediate in the J range is its low 21 bits, sign-extended. -/
theorem signExtend_low21 {imm : Word} (h : immOkJ imm) : (imm.extractLsb' 0 21).signExtend 32 = imm := by
  have hl := imm.isLt
  apply BitVec.eq_of_toInt_eq
  simp only [immOkJ, BitVec.toInt_eq_toNat_cond] at h
  rw [BitVec.toInt_signExtend_of_le (by omega)]
  simp only [BitVec.toInt_eq_toNat_cond, BitVec.extractLsb'_toNat, Nat.shiftRight_zero]
  split at h <;> split <;> omega

/-- An even value has bit 0 clear. -/
theorem getLsbD_zero_of_even {imm : Word} (h : imm.toInt % 2 = 0) : imm.getLsbD 0 = false := by
  have hl := imm.isLt
  rw [BitVec.toInt_eq_toNat_cond] at h
  have : imm.toNat % 2 = 0 := by split at h <;> omega
  simp [BitVec.getLsbD, Nat.testBit_zero, this]

/-- The second register of an R-format word. -/
@[simp] theorem rs2Of_encodeR (f7 : BitVec 7) (r2 r1 : Reg) (f3 : BitVec 3) (d : Reg) (op : BitVec 7) :
    rs2Of (encodeR f7 (regBits r2) r1 f3 d op) = r2 := by
  have : (encodeR f7 (regBits r2) r1 f3 d op).extractLsb' 20 5 = regBits r2 := shamtOf_encodeR ..
  rw [rs2Of, this, toFin_regBits]

/-- An I-format immediate reads back (R58). -/
theorem immI_encodeI {imm : Word} (h : immOk12 imm) (r1 : Reg) (f3 : BitVec 3) (d : Reg) (op : BitVec 7) :
    immI (encodeI imm r1 f3 d op) = imm := by
  refine Eq.trans ?_ (signExtend_low12 h)
  rw [immI]; congr 1
  apply BitVec.eq_of_getLsbD_eq
  intro i hi
  simp only [encodeI, BitVec.getLsbD_extractLsb', BitVec.getLsbD_or, getLsbD_placeAt]
  interval_cases i <;> simp

/-- An S-format immediate reads back (R59). -/
theorem immS_encodeS {imm : Word} (h : immOk12 imm) (r2 r1 : Reg) (f3 : BitVec 3) (op : BitVec 7) :
    immS (encodeS imm r2 r1 f3 op) = imm := by
  refine Eq.trans ?_ (signExtend_low12 h)
  rw [immS]; congr 1
  apply BitVec.eq_of_getLsbD_eq
  intro i hi
  simp only [encodeS, BitVec.getLsbD_append, BitVec.getLsbD_extractLsb', BitVec.getLsbD_or, getLsbD_placeAt]
  interval_cases i <;> simp

/-- A B-format immediate reads back (R60). -/
theorem immB_encodeB {imm : Word} (h : immOkB imm) (r2 r1 : Reg) (f3 : BitVec 3) (op : BitVec 7) :
    immB (encodeB imm r2 r1 f3 op) = imm := by
  refine Eq.trans ?_ (signExtend_low13 h)
  rw [immB]; congr 1
  apply BitVec.eq_of_getLsbD_eq
  have h0 : imm[0] = false := getLsbD_zero_of_even h.2.2
  intro i hi
  simp only [encodeB, BitVec.getLsbD_append, BitVec.getLsbD_extractLsb', BitVec.getLsbD_or, getLsbD_placeAt]
  interval_cases i <;> simp [h0]

/-- A J-format immediate reads back (R62). -/
theorem immJ_encodeJ {imm : Word} (h : immOkJ imm) (d : Reg) (op : BitVec 7) : immJ (encodeJ imm d op) = imm := by
  refine Eq.trans ?_ (signExtend_low21 h)
  rw [immJ]; congr 1
  apply BitVec.eq_of_getLsbD_eq
  have h0 : imm[0] = false := getLsbD_zero_of_even h.2.2
  intro i hi
  simp only [encodeJ, BitVec.getLsbD_append, BitVec.getLsbD_extractLsb', BitVec.getLsbD_or, getLsbD_placeAt]
  interval_cases i <;> simp [h0]

/-- A U-format immediate reads back (R61). -/
theorem immU_encodeU {imm : Word} (h : immOkU imm) (d : Reg) (op : BitVec 7) : immU (encodeU imm d op) = imm := by
  have h0 (i : Nat) (hi : i < 12) : imm[i] = false := by
    rw [BitVec.getElem_eq_testBit_toNat, Nat.testBit_eq_decide_div_mod_eq, decide_eq_false_iff_not]
    interval_cases i <;> simp only [immOkU] at h <;> omega
  apply BitVec.eq_of_getLsbD_eq
  intro i hi
  simp only [immU, encodeU, BitVec.getLsbD_extractLsb', BitVec.getLsbD_or, getLsbD_placeAt]
  interval_cases i <;> simp [h0]

end Sys2Proof
end

