-- ==== Sys2Proof/Laws/Memory.lean ====
section
/-! SUPPORT. Reading after writing, and the canonical form of the memory list. -/

namespace Sys2Proof.Machine

@[simp] theorem Memory.read_nil (a : Nat) : Memory.read [] a = 0 := rfl

theorem Memory.read_cons (c : Host.Cell) (m : Memory) (a : Nat) :
    Memory.read (c :: m) a = if a = c.1 then c.2 else Memory.read m a := rfl

/-- A cleared address reads 0, every other as before. -/
theorem Memory.read_clear (m : Memory) (a b : Nat) :
    (Memory.clear m a).read b = if b = a then 0 else m.read b := by
  induction m with
  | nil => simp [Memory.clear]
  | cons c m ih =>
    by_cases hc : c.1 = a
    · have hcl : Memory.clear (c :: m) a = Memory.clear m a := by simp [Memory.clear, hc]
      rw [hcl, ih, Memory.read_cons, hc]
      by_cases hb : b = a <;> simp [hb]
    · have hcl : Memory.clear (c :: m) a = c :: Memory.clear m a := by simp [Memory.clear, hc]
      rw [hcl, Memory.read_cons, ih, Memory.read_cons]
      by_cases hb : b = a
      · have : a ≠ c.1 := fun h => hc h.symm
        simp [hb, this]
      · simp [hb]

/-- A placed cell reads as its byte when its address was not listed before; every other address reads as before. -/
theorem Memory.read_place (m : Memory) (a b : Nat) (v : Byte) (h : ∀ c ∈ m, c.1 ≠ a) :
    (Memory.place m a v).read b = if b = a then v else m.read b := by
  induction m with
  | nil => simp [Memory.place, Memory.read_cons]
  | cons c m ih =>
    have hc : c.1 ≠ a := h c (by simp)
    simp only [Memory.place]
    split
    · simp [Memory.read_cons]
    · rw [Memory.read_cons, ih fun d hd => h d (by simp [hd]), Memory.read_cons]
      by_cases hb : b = a
      · have : a ≠ c.1 := fun e => hc e.symm
        simp [hb, this]
      · simp [hb]

theorem Memory.clear_ne (m : Memory) (a : Nat) : ∀ c ∈ Memory.clear m a, c.1 ≠ a := by
  intro c hc
  simpa [Memory.clear] using (List.mem_filter.1 hc).2

/-- A read after a write: the byte written at its address, the byte before at every other (R42). -/
theorem Memory.read_write (m : Memory) (a b : Nat) (v : Byte) :
    (m.write a v).read b = if b = a then v else m.read b := by
  unfold Memory.write
  split
  · rename_i hv; rw [Memory.read_clear]; simp [hv]
  · rw [Memory.read_place _ _ _ _ (Memory.clear_ne m a), Memory.read_clear]
    by_cases hb : b = a <;> simp [hb]

/-- A cell of a memory after a placing is the placed one or was there. -/
theorem Memory.mem_place {m : Memory} {a : Nat} {v : Byte} {c : Host.Cell} (h : c ∈ Memory.place m a v) :
    c = (a, v) ∨ c ∈ m := by
  induction m with
  | nil => simpa [Memory.place] using h
  | cons d m ih =>
    simp only [Memory.place] at h
    split at h
    · simpa using h
    · rcases List.mem_cons.1 h with rfl | h
      · simp
      · rcases ih h with h | h <;> simp [h]

/-- A cell of a memory after a write is the written one, with a byte that is not zero, or was there. -/
theorem Memory.mem_write {m : Memory} {a : Nat} {v : Byte} {c : Host.Cell} (h : c ∈ m.write a v) :
    (c = (a, v) ∧ v ≠ 0) ∨ c ∈ m := by
  unfold Memory.write at h
  split at h
  · exact .inr (List.mem_filter.1 h).1
  · rcases Memory.mem_place h with h | h
    · exact .inl ⟨h, ‹_›⟩
    · exact .inr (List.mem_filter.1 h).1

theorem Memory.place_sorted {m : Memory} {a : Nat} {v : Byte} (hm : m.Pairwise (fun c d => c.1 < d.1))
    (h : ∀ c ∈ m, c.1 ≠ a) : (Memory.place m a v).Pairwise (fun c d => c.1 < d.1) := by
  induction m with
  | nil => simp [Memory.place]
  | cons c m ih =>
    obtain ⟨h1, h2⟩ := List.pairwise_cons.1 hm
    have hc : c.1 ≠ a := h c (by simp)
    simp only [Memory.place]
    split
    · rename_i hlt
      refine List.pairwise_cons.2 ⟨fun d hd => ?_, hm⟩
      rcases List.mem_cons.1 hd with rfl | hd
      · exact hlt
      · exact Nat.lt_trans hlt (h1 d hd)
    · refine List.pairwise_cons.2 ⟨fun d hd => ?_, ih h2 fun d hd => h d (by simp [hd])⟩
      rcases Memory.mem_place hd with rfl | hd
      · simp only; omega
      · exact h1 d hd

/-- A write keeps the canonical form. -/
theorem Memory.write_wf {m : Memory} (hm : Memory.wf m) (a : Nat) (v : Byte) : Memory.wf (m.write a v) := by
  have hs : (Memory.clear m a).Pairwise (fun c d => c.1 < d.1) := hm.1.filter _
  refine ⟨?_, fun c hc => ?_⟩
  · unfold Memory.write
    split
    · exact hs
    · exact Memory.place_sorted hs (Memory.clear_ne m a)
  · rcases Memory.mem_write hc with ⟨rfl, hv⟩ | hc
    · exact hv
    · exact hm.2 c hc

/-- A write inside the buffer keeps every listed address inside it. -/
theorem Memory.write_within {size : Nat} {m : Memory} (hm : Memory.within size m) {a : Nat} (ha : a < size) (v : Byte) :
    Memory.within size (m.write a v) := by
  intro c hc
  rcases Memory.mem_write hc with ⟨rfl, -⟩ | hc
  · exact ha
  · exact hm c hc

/-- An address outside the buffer reads 0 when every listed address is inside it. -/
theorem Memory.read_outside {size : Nat} {m : Memory} (hm : Memory.within size m) {a : Nat} (ha : size ≤ a) :
    m.read a = 0 := by
  induction m with
  | nil => rfl
  | cons c m ih =>
    have hc : c.1 < size := hm c (by simp)
    rw [Memory.read_cons, if_neg (by omega), ih fun d hd => hm d (by simp [hd])]

/-! ## Stores of several bytes (R35) -/

theorem storeBytes_zero (m : Memory) (a v : Word) : storeBytes m a v 0 = m := rfl

theorem storeBytes_succ (m : Memory) (a v : Word) (n : Nat) :
    storeBytes m a v (n + 1) = (storeBytes m a v n).write (a + BitVec.ofNat 32 n).toNat (v.extractLsb' (8 * n) 8) := rfl

/-- An address outside the bytes stored reads as before. -/
theorem read_storeBytes_of_not_covers (m : Memory) (a v : Word) (n b : Nat) (h : ¬ covers a n b) :
    (storeBytes m a v n).read b = m.read b := by
  induction n with
  | zero => rfl
  | succ n ih =>
    rw [storeBytes_succ, Memory.read_write, if_neg fun e => h ⟨n, by omega, e⟩]
    exact ih fun ⟨k, hk, e⟩ => h ⟨k, by omega, e⟩

/-- The addresses of an access of at most 2^32 bytes are distinct (R33). -/
theorem address_injective (a : Word) {j k : Nat} (hj : j < 2 ^ 32) (hk : k < 2 ^ 32)
    (h : (a + BitVec.ofNat 32 j).toNat = (a + BitVec.ofNat 32 k).toNat) : j = k := by
  simp only [BitVec.toNat_add, BitVec.toNat_ofNat] at h
  omega

/-- A stored byte reads back as its 8 bits of the value. -/
theorem read_storeBytes_of_lt (m : Memory) (a v : Word) {n k : Nat} (hn : n ≤ 2 ^ 32) (hk : k < n) :
    (storeBytes m a v n).read (a + BitVec.ofNat 32 k).toNat = v.extractLsb' (8 * k) 8 := by
  induction n with
  | zero => omega
  | succ n ih =>
    rw [storeBytes_succ, Memory.read_write]
    by_cases h : k = n
    · simp [h]
    · rw [if_neg fun e => h (address_injective a (by omega) (by omega) e), ih (by omega) (by omega)]

/-- A store keeps the canonical form. -/
theorem storeBytes_wf {m : Memory} (hm : Memory.wf m) (a v : Word) (n : Nat) : Memory.wf (storeBytes m a v n) := by
  induction n with
  | zero => exact hm
  | succ n ih => exact Memory.write_wf ih _ _

/-- A store in bounds keeps every listed address inside the buffer. -/
theorem storeBytes_within {size : Nat} {m : Memory} (hm : Memory.within size m) {a v : Word} {n : Nat}
    (h : ∀ k < n, (a + BitVec.ofNat 32 k).toNat < size) : Memory.within size (storeBytes m a v n) := by
  induction n with
  | zero => exact hm
  | succ n ih => exact Memory.write_within (ih fun k hk => h k (by omega)) (h n (by omega)) _

end Sys2Proof.Machine
end

