-- ==== Sys2Proof/Laws/State.lean ====
section
/-! SUPPORT. One lemma per field per state update, and what reading a register gives after each. -/

namespace Sys2Proof.Machine

variable (s : State)

/-! ## writeCell -/

@[simp] theorem State.writeCell_cfg (r : Reg) (v : Word) : (s.writeCell r v).cfg = s.cfg := rfl
@[simp] theorem State.writeCell_regs (r : Reg) (v : Word) : (s.writeCell r v).regs = s.regs.set r v := rfl
@[simp] theorem State.writeCell_pc (r : Reg) (v : Word) : (s.writeCell r v).pc = s.pc := rfl
@[simp] theorem State.writeCell_mem (r : Reg) (v : Word) : (s.writeCell r v).mem = s.mem := rfl
@[simp] theorem State.writeCell_run (r : Reg) (v : Word) : (s.writeCell r v).run = s.run := rfl
@[simp] theorem State.writeCell_fault (r : Reg) (v : Word) : (s.writeCell r v).fault = s.fault := rfl
@[simp] theorem State.writeCell_out (r : Reg) (v : Word) : (s.writeCell r v).out = s.out := rfl

/-! ## writeReg -/

@[simp] theorem State.writeReg_cfg (r : Reg) (v : Word) : (s.writeReg r v).cfg = s.cfg := rfl
@[simp] theorem State.writeReg_pc (r : Reg) (v : Word) : (s.writeReg r v).pc = s.pc := rfl
@[simp] theorem State.writeReg_mem (r : Reg) (v : Word) : (s.writeReg r v).mem = s.mem := rfl
@[simp] theorem State.writeReg_run (r : Reg) (v : Word) : (s.writeReg r v).run = s.run := rfl
@[simp] theorem State.writeReg_fault (r : Reg) (v : Word) : (s.writeReg r v).fault = s.fault := rfl
@[simp] theorem State.writeReg_out (r : Reg) (v : Word) : (s.writeReg r v).out = s.out := rfl

/-! ## forceX0 -/

@[simp] theorem State.forceX0_cfg : (s.forceX0).cfg = s.cfg := rfl
@[simp] theorem State.forceX0_regs : (s.forceX0).regs = s.regs.set 0 0 := rfl
@[simp] theorem State.forceX0_pc : (s.forceX0).pc = s.pc := rfl
@[simp] theorem State.forceX0_mem : (s.forceX0).mem = s.mem := rfl
@[simp] theorem State.forceX0_run : (s.forceX0).run = s.run := rfl
@[simp] theorem State.forceX0_fault : (s.forceX0).fault = s.fault := rfl
@[simp] theorem State.forceX0_out : (s.forceX0).out = s.out := rfl

/-! ## setPc -/

@[simp] theorem State.setPc_cfg (t : Word) : (s.setPc t).cfg = s.cfg := rfl
@[simp] theorem State.setPc_regs (t : Word) : (s.setPc t).regs = s.regs := rfl
@[simp] theorem State.setPc_pc (t : Word) : (s.setPc t).pc = t := rfl
@[simp] theorem State.setPc_mem (t : Word) : (s.setPc t).mem = s.mem := rfl
@[simp] theorem State.setPc_run (t : Word) : (s.setPc t).run = s.run := rfl
@[simp] theorem State.setPc_fault (t : Word) : (s.setPc t).fault = s.fault := rfl
@[simp] theorem State.setPc_out (t : Word) : (s.setPc t).out = s.out := rfl

/-! ## store -/

@[simp] theorem State.store_cfg (a v : Word) (n : Nat) : (s.store a v n).cfg = s.cfg := rfl
@[simp] theorem State.store_regs (a v : Word) (n : Nat) : (s.store a v n).regs = s.regs := rfl
@[simp] theorem State.store_pc (a v : Word) (n : Nat) : (s.store a v n).pc = s.pc := rfl
@[simp] theorem State.store_mem (a v : Word) (n : Nat) : (s.store a v n).mem = storeBytes s.mem a v n := rfl
@[simp] theorem State.store_run (a v : Word) (n : Nat) : (s.store a v n).run = s.run := rfl
@[simp] theorem State.store_fault (a v : Word) (n : Nat) : (s.store a v n).fault = s.fault := rfl
@[simp] theorem State.store_out (a v : Word) (n : Nat) : (s.store a v n).out = s.out := rfl

/-! ## output -/

@[simp] theorem State.output_cfg (str : Text) : (s.output str).cfg = s.cfg := rfl
@[simp] theorem State.output_regs (str : Text) : (s.output str).regs = s.regs := rfl
@[simp] theorem State.output_pc (str : Text) : (s.output str).pc = s.pc := rfl
@[simp] theorem State.output_mem (str : Text) : (s.output str).mem = s.mem := rfl
@[simp] theorem State.output_run (str : Text) : (s.output str).run = s.run := rfl
@[simp] theorem State.output_fault (str : Text) : (s.output str).fault = s.fault := rfl
@[simp] theorem State.output_out (str : Text) : (s.output str).out = s.out ++ [str] := rfl

/-! ## halt -/

@[simp] theorem State.halt_cfg : (s.halt).cfg = s.cfg := rfl
@[simp] theorem State.halt_regs : (s.halt).regs = s.regs := rfl
@[simp] theorem State.halt_pc : (s.halt).pc = s.pc := rfl
@[simp] theorem State.halt_mem : (s.halt).mem = s.mem := rfl
@[simp] theorem State.halt_run : (s.halt).run = .halted := rfl
@[simp] theorem State.halt_fault : (s.halt).fault = s.fault := rfl
@[simp] theorem State.halt_out : (s.halt).out = s.out := rfl

/-! ## raise -/

@[simp] theorem State.raise_cfg (r : TrapRecord) : (s.raise r).cfg = s.cfg := rfl
@[simp] theorem State.raise_regs (r : TrapRecord) : (s.raise r).regs = s.regs := rfl
@[simp] theorem State.raise_pc (r : TrapRecord) : (s.raise r).pc = s.pc := rfl
@[simp] theorem State.raise_mem (r : TrapRecord) : (s.raise r).mem = s.mem := rfl
@[simp] theorem State.raise_run (r : TrapRecord) : (s.raise r).run = .trapped := rfl
@[simp] theorem State.raise_fault (r : TrapRecord) : (s.raise r).fault = some r := rfl
@[simp] theorem State.raise_out (r : TrapRecord) : (s.raise r).out = s.out ++ [Config.diag r] := rfl

/-! ## enterStep -/

@[simp] theorem State.enterStep_cfg : (s.enterStep).cfg = s.cfg := rfl
@[simp] theorem State.enterStep_regs : (s.enterStep).regs = s.regs.set 0 0 := rfl
@[simp] theorem State.enterStep_pc : (s.enterStep).pc = s.pc := rfl
@[simp] theorem State.enterStep_mem : (s.enterStep).mem = s.mem := rfl
@[simp] theorem State.enterStep_run : (s.enterStep).run = .running := rfl
@[simp] theorem State.enterStep_fault : (s.enterStep).fault = s.fault := rfl
@[simp] theorem State.enterStep_out : (s.enterStep).out = s.out := rfl

/-! ## advance -/

@[simp] theorem State.advance_cfg : (s.advance).cfg = s.cfg := rfl
@[simp] theorem State.advance_regs : (s.advance).regs = s.regs := rfl
@[simp] theorem State.advance_pc : (s.advance).pc = s.pc + 4 := rfl
@[simp] theorem State.advance_mem : (s.advance).mem = s.mem := rfl
@[simp] theorem State.advance_run : (s.advance).run = s.run := rfl
@[simp] theorem State.advance_fault : (s.advance).fault = s.fault := rfl
@[simp] theorem State.advance_out : (s.advance).out = s.out := rfl

/-! ## atExecute -/

@[simp] theorem State.atExecute_cfg : (s.atExecute).cfg = s.cfg := rfl
@[simp] theorem State.atExecute_regs : (s.atExecute).regs = s.regs.set 0 0 := rfl
@[simp] theorem State.atExecute_pc : (s.atExecute).pc = s.pc + 4 := rfl
@[simp] theorem State.atExecute_mem : (s.atExecute).mem = s.mem := rfl
@[simp] theorem State.atExecute_run : (s.atExecute).run = .running := rfl
@[simp] theorem State.atExecute_fault : (s.atExecute).fault = s.fault := rfl
@[simp] theorem State.atExecute_out : (s.atExecute).out = s.out := rfl

/-! ## ceiling -/

@[simp] theorem State.ceiling_cfg : (s.ceiling).cfg = s.cfg := rfl
@[simp] theorem State.ceiling_regs : (s.ceiling).regs = s.regs := rfl
@[simp] theorem State.ceiling_pc : (s.ceiling).pc = s.pc := rfl
@[simp] theorem State.ceiling_mem : (s.ceiling).mem = s.mem := rfl
@[simp] theorem State.ceiling_fault : (s.ceiling).fault = s.fault := rfl
@[simp] theorem State.ceiling_out : (s.ceiling).out = s.out := rfl

/-! ## the state after reset -/

@[simp] theorem State.resetWith_cfg (c : Config) : (State.resetWith c).cfg = c := rfl
@[simp] theorem State.resetWith_regs (c : Config) : (State.resetWith c).regs = Vector.replicate 32 0 := rfl
@[simp] theorem State.resetWith_pc (c : Config) : (State.resetWith c).pc = 0 := rfl
@[simp] theorem State.resetWith_mem (c : Config) : (State.resetWith c).mem = [] := rfl
@[simp] theorem State.resetWith_run (c : Config) : (State.resetWith c).run = .unloaded := rfl
@[simp] theorem State.resetWith_fault (c : Config) : (State.resetWith c).fault = none := rfl
@[simp] theorem State.resetWith_out (c : Config) : (State.resetWith c).out = [] := rfl

/-! ## reading registers -/

/-- `x0` reads as zero (R15). -/
@[simp] theorem State.readReg_zero : s.readReg 0 = 0 := by simp [State.readReg]

/-- Only the register file decides what registers read as. -/
theorem State.readReg_congr {s t : State} (h : t.regs = s.regs) (r : Reg) : t.readReg r = s.readReg r := by
  simp [State.readReg, h]

/-- The destination reads as written, unless it is `x0`; every other register reads as before (R14, R15). -/
theorem State.readReg_writeReg (r q : Reg) (v : Word) :
    (s.writeReg r v).readReg q = if q = 0 then 0 else if q = r then v else s.readReg q := by
  by_cases hq : q = 0
  · simp [hq]
  · by_cases hr : r = 0
    · subst hr; simp [State.readReg, State.writeReg, hq]
    · simp only [State.readReg, State.writeReg, hq, hr, if_false, Fin.getElem_fin, Vector.getElem_set]
      by_cases h : q = r
      · simp [h]
      · have : r.val ≠ q.val := fun e => h (Fin.ext e.symm)
        simp [h, this]

/-- Writing the cell of `x0` changes what no register reads as (R15). -/
theorem State.readReg_set_zero {s t : State} {v : Word} (h : t.regs = s.regs.set 0 v) (q : Reg) :
    t.readReg q = s.readReg q := by
  by_cases hq : q = 0
  · simp [hq]
  · have : (0 : Nat) ≠ q.val := fun e => hq (Fin.ext e.symm)
    simp [State.readReg, h, hq, this]

@[simp] theorem State.readReg_forceX0 (q : Reg) : s.forceX0.readReg q = s.readReg q := State.readReg_set_zero rfl q
@[simp] theorem State.readReg_enterStep (q : Reg) : s.enterStep.readReg q = s.readReg q := State.readReg_set_zero rfl q
@[simp] theorem State.readReg_atExecute (q : Reg) : s.atExecute.readReg q = s.readReg q := State.readReg_set_zero rfl q
@[simp] theorem State.readReg_setPc (t : Word) (q : Reg) : (s.setPc t).readReg q = s.readReg q := rfl
@[simp] theorem State.readReg_store (a v : Word) (n : Nat) (q : Reg) : (s.store a v n).readReg q = s.readReg q := rfl
@[simp] theorem State.readReg_output (str : Text) (q : Reg) : (s.output str).readReg q = s.readReg q := rfl
@[simp] theorem State.readReg_halt (q : Reg) : s.halt.readReg q = s.readReg q := rfl
@[simp] theorem State.readReg_raise (r : TrapRecord) (q : Reg) : (s.raise r).readReg q = s.readReg q := rfl

/-- `ipc` during Execute is the address the instruction was fetched from (R80; log 6). -/
@[simp] theorem State.ipc_atExecute : s.atExecute.ipc = s.pc := by simp [State.ipc]

/-- The output as one string grows by the text printed (R25). -/
@[simp] theorem State.outText_output (str : Text) : (s.output str).outText = s.outText ++ str := by
  simp [State.outText]

/-- The cell of `x0` holds 0 once forced (R80). -/
theorem State.forceX0_zeroCell : s.forceX0.regs[0] = 0 := by simp

end Sys2Proof.Machine
end

