-- ==== Sys2Proof/Laws/Ops.lean ====
section
/-! SUPPORT. What the shared operations can do, said once: the checks, loads, stores, the string scan, decimal text. -/

namespace Sys2Proof.Machine

/-! ## Checks (R33, R38, R150) -/

/-- R33's formula. -/
theorem inBounds_iff (size : Nat) (a : Word) (n : Nat) :
    inBounds size a n = true ↔ ∀ k < n, (a + BitVec.ofNat 32 k).toNat < size := by
  simp [inBounds]

theorem inBounds_one (size : Nat) (a : Word) : inBounds size a 1 = decide (a.toNat < size) := by
  simp [inBounds, Nat.mod_eq_of_lt a.isLt]

/-- When an access is refused as misaligned (R38). -/
theorem misaligned_iff (c : Config) (a : Word) (n : Nat) :
    misaligned c a n = true ↔ c.misalignedData = .fault ∧ 1 < n ∧ a.toNat % n ≠ 0 := by
  simp [misaligned, and_assoc]

/-- A load without a fault: aligned where it must be, and in bounds. -/
theorem loadFault_eq_none (c : Config) (a : Word) (n : Nat) :
    loadFault c a n = none ↔ misaligned c a n = false ∧ inBounds c.memSize a n = true := by
  unfold loadFault
  split <;> [skip; split] <;> simp_all

/-- A store without a fault: aligned where it must be, and in bounds. -/
theorem storeFault_eq_none (c : Config) (a : Word) (n : Nat) :
    storeFault c a n = none ↔ misaligned c a n = false ∧ inBounds c.memSize a n = true := by
  unfold storeFault
  split <;> [skip; split] <;> simp_all

/-- The faults a load can have, with their order (R150). -/
theorem loadFault_cases {c : Config} {a : Word} {n : Nat} {f : Cause} (h : loadFault c a n = some f) :
    (misaligned c a n = true ∧ f = .loadAddressMisaligned a) ∨
      (misaligned c a n = false ∧ inBounds c.memSize a n = false ∧ f = .loadAccessFault a) := by
  unfold loadFault at h
  split at h <;> [skip; split at h] <;> simp_all

/-- The faults a store can have, with their order (R150). -/
theorem storeFault_cases {c : Config} {a : Word} {n : Nat} {f : Cause} (h : storeFault c a n = some f) :
    (misaligned c a n = true ∧ f = .storeAddressMisaligned a) ∨
      (misaligned c a n = false ∧ inBounds c.memSize a n = false ∧ f = .storeAccessFault a) := by
  unfold storeFault at h
  split at h <;> [skip; split at h] <;> simp_all

/-! ## Loads and stores -/

/-- A load writes its register or raises its fault; it always answers a next state. -/
theorem loadInto_cases (i : Instr) (rd : Reg) (a : Word) (n : Nat) (v : Word) (s : State) :
    (loadFault s.cfg a n = none ∧ loadInto i rd a n v s = .next (s.writeReg rd v)) ∨
      ∃ c, loadFault s.cfg a n = some c ∧ loadInto i rd a n v s = .next (s.raise ⟨c, s.ipc, some (encode i)⟩) := by
  unfold loadInto
  split
  · rename_i c hc; exact .inr ⟨c, hc, rfl⟩
  · rename_i hc; exact .inl ⟨hc, rfl⟩

/-- A store writes its bytes or raises its fault; it always answers a next state. -/
theorem storeFrom_cases (i : Instr) (a v : Word) (n : Nat) (s : State) :
    (storeFault s.cfg a n = none ∧ storeFrom i a v n s = .next (s.store a v n)) ∨
      ∃ c, storeFault s.cfg a n = some c ∧ storeFrom i a v n s = .next (s.raise ⟨c, s.ipc, some (encode i)⟩) := by
  unfold storeFrom
  split
  · rename_i c hc; exact .inr ⟨c, hc, rfl⟩
  · rename_i hc; exact .inl ⟨hc, rfl⟩

/-! ## The string scan (R123) -/

/-- `n` addresses from `v` hold bytes in bounds that are not zero. -/
def nonZeroRun (s : State) (v : Word) (n : Nat) : Prop :=
  ∀ k < n, (v + BitVec.ofNat 32 k).toNat < s.cfg.memSize ∧ s.mem.read (v + BitVec.ofNat 32 k).toNat ≠ 0

theorem add_ofNat_succ (v : Word) (k : Nat) : v + 1 + BitVec.ofNat 32 k = v + BitVec.ofNat 32 (k + 1) := by
  rw [BitVec.add_assoc]
  congr 1
  apply BitVec.eq_of_toNat_eq
  simp [Nat.add_comm]

theorem nonZeroRun_succ {s : State} {v : Word} {n : Nat} :
    nonZeroRun s v (n + 1) ↔ (v.toNat < s.cfg.memSize ∧ s.mem.read v.toNat ≠ 0) ∧ nonZeroRun s (v + 1) n := by
  constructor
  · intro h
    refine ⟨by simpa using h 0 (by omega), fun k hk => ?_⟩
    rw [add_ofNat_succ]; exact h (k + 1) (by omega)
  · rintro ⟨h0, h⟩ k hk
    cases k with
    | zero => simpa using h0
    | succ k => rw [← add_ofNat_succ]; exact h k (by omega)

/-- The text of `n` bytes from `v`. -/
def textOf (s : State) (v : Word) : Nat → Text
  | 0 => []
  | n + 1 => charOfByte (s.byteAt v) ++ textOf s (v + 1) n

/-- One address of a scan. -/
theorem scanString_succ (s : State) (n : Nat) (a : Word) :
    scanString s (n + 1) a =
      if a.toNat < s.cfg.memSize then
        if s.mem.read a.toNat = 0 then .text []
        else (scanString s n (a + 1)).prepend (charOfByte (s.byteAt a))
      else .outOfBounds a := by
  by_cases h : a.toNat < s.cfg.memSize
  · simp only [scanString, inBounds_one, h, decide_true, if_true]; rfl
  · simp [scanString, inBounds_one, h]

/-- A scan over more addresses than the string has bytes reads the string. -/
theorem scanString_text {s : State} {n fuel : Nat} {v : Word} (hrun : nonZeroRun s v n)
    (hb : (v + BitVec.ofNat 32 n).toNat < s.cfg.memSize) (hz : s.mem.read (v + BitVec.ofNat 32 n).toNat = 0)
    (hf : n < fuel) : scanString s fuel v = .text (textOf s v n) := by
  induction n generalizing v fuel with
  | zero =>
    obtain ⟨fuel, rfl⟩ : ∃ f, fuel = f + 1 := ⟨fuel - 1, by omega⟩
    rw [BitVec.add_zero] at hb hz
    rw [scanString_succ, if_pos hb, if_pos hz, textOf]
  | succ n ih =>
    obtain ⟨fuel, rfl⟩ : ∃ f, fuel = f + 1 := ⟨fuel - 1, by omega⟩
    obtain ⟨⟨h1, h2⟩, h3⟩ := nonZeroRun_succ.1 hrun
    have := ih (fuel := fuel) h3 (by rwa [add_ofNat_succ]) (by rwa [add_ofNat_succ]) (by omega)
    rw [scanString_succ, if_pos h1, if_neg h2, this, ScanResult.prepend, textOf]

/-- A scan that meets an address out of bounds before a zero byte ends there. -/
theorem scanString_outOfBounds {s : State} {n fuel : Nat} {v : Word} (hrun : nonZeroRun s v n)
    (hb : s.cfg.memSize ≤ (v + BitVec.ofNat 32 n).toNat) (hf : n < fuel) :
    scanString s fuel v = .outOfBounds (v + BitVec.ofNat 32 n) := by
  induction n generalizing v fuel with
  | zero =>
    obtain ⟨fuel, rfl⟩ : ∃ f, fuel = f + 1 := ⟨fuel - 1, by omega⟩
    rw [BitVec.add_zero] at hb ⊢
    rw [scanString_succ, if_neg (by omega)]
  | succ n ih =>
    obtain ⟨fuel, rfl⟩ : ∃ f, fuel = f + 1 := ⟨fuel - 1, by omega⟩
    obtain ⟨⟨h1, h2⟩, h3⟩ := nonZeroRun_succ.1 hrun
    have := ih (fuel := fuel) h3 (by rwa [add_ofNat_succ]) (by omega)
    rw [scanString_succ, if_pos h1, if_neg h2, this, ScanResult.prepend, add_ofNat_succ]

/-- A scan without an end has met only bytes in bounds that are not zero. -/
theorem nonZeroRun_of_endless {s : State} {fuel : Nat} {v : Word} (h : scanString s fuel v = .endless) :
    nonZeroRun s v fuel := by
  induction fuel generalizing v with
  | zero => intro k hk; omega
  | succ fuel ih =>
    rw [scanString_succ] at h
    split at h
    · rename_i hb
      split at h
      · cases h
      · rename_i hz
        refine nonZeroRun_succ.2 ⟨⟨hb, hz⟩, ih ?_⟩
        cases hs : scanString s fuel (v + 1) <;> simp_all [ScanResult.prepend]
    · cases h

/-- At most `MEM_SIZE` distinct addresses are in bounds (R33, R123). -/
theorem run_length_le {s : State} {v : Word} {n : Nat} (h : nonZeroRun s v n) (hn : n ≤ 2 ^ 32) :
    n ≤ s.cfg.memSize := by
  have hf : Function.Injective fun k : Fin n => (⟨_, (h k.val k.isLt).1⟩ : Fin s.cfg.memSize) := by
    intro j k e
    exact Fin.ext (address_injective v (by omega) (by omega) (by simpa using e))
  simpa using Fintype.card_le_of_injective _ hf

/-- Every address is within 2^32 of every other. -/
theorem exists_offset (v : Word) (a : Nat) (ha : a < 2 ^ 32) : ∃ k < 2 ^ 32, (v + BitVec.ofNat 32 k).toNat = a := by
  refine ⟨(BitVec.ofNat 32 a - v).toNat, (BitVec.ofNat 32 a - v).isLt, ?_⟩
  rw [BitVec.ofNat_toNat, BitVec.setWidth_eq, BitVec.add_comm, BitVec.sub_add_cancel, BitVec.toNat_ofNat,
    Nat.mod_eq_of_lt ha]

/-- The scan over `MEM_SIZE + 1` addresses ends when some byte of the buffer is zero (R123). -/
theorem scanString_ends {s : State} (hc : s.cfg.memSize ≤ 2 ^ 32) {z : Nat} (hz : z < s.cfg.memSize)
    (h0 : s.mem.read z = 0) (v : Word) : scanString s (s.cfg.memSize + 1) v ≠ .endless := by
  intro h
  have hrun := nonZeroRun_of_endless h
  obtain ⟨k, hk, e⟩ := exists_offset v z (by omega)
  by_cases hlt : k < s.cfg.memSize + 1
  · exact (hrun k hlt).2 (by rw [e]; exact h0)
  · have := run_length_le hrun (by omega)
    omega

/-! ## ECALL -/

/-- What ECALL can do: print, halt, trap, or the one stop of the model (R121 to R126). -/
theorem execEcall_cases (s : State) :
    (∃ str, execEcall s = .next (s.output str)) ∨
      (s.readReg regA7 = 10 ∧ execEcall s = .next s.halt) ∨
      (∃ c, execEcall s = .next (s.raise ⟨c, s.ipc, some (encode .ecall)⟩)) ∨
      (scanString s (s.cfg.memSize + 1) (s.readReg regA0) = .endless ∧ execEcall s = .fault .stringScanEndless) := by
  unfold execEcall
  simp only [syscallPrintInt, syscallPrintString, syscallHalt, syscallPrintChar, raiseInExecute, raiseFetched]
  split
  · exact .inl ⟨_, rfl⟩
  split
  · split
    · exact .inl ⟨_, rfl⟩
    · exact .inr (.inr (.inl ⟨_, rfl⟩))
    · exact .inr (.inr (.inr ⟨‹_›, rfl⟩))
  split
  · exact .inr (.inl ⟨BitVec.eq_of_toNat_eq (by simpa using ‹_›), rfl⟩)
  split
  · exact .inl ⟨_, rfl⟩
  · exact .inr (.inr (.inl ⟨_, rfl⟩))

end Sys2Proof.Machine
end

