-- ==== Sys2Proof/Laws/Exec.lean ====
section
/-! SUPPORT. What executing one instruction can do, said once, and what one step can do, from it. -/

namespace Sys2Proof.Machine

/-- Everything an instruction can do: write one register, transfer control with at most a link written, store, print,
halt, trap, or the one stop of the model. -/
inductive Effect (i : Instr) (s : State) : Outcome → Prop where
  | result (rd : Reg) (v : Word) : isStore i = false → Effect i s (.next (s.writeReg rd v))
  | transfer (rd : Reg) (v t : Word) : isTransfer i = true → Effect i s (.next ((s.writeReg rd v).setPc t))
  | store (a v : Word) (n : Nat) : isStore i = true → inBounds s.cfg.memSize a n = true →
      Effect i s (.next (s.store a v n))
  | print (str : Text) : i = .ecall → Effect i s (.next (s.output str))
  | halt : i = .ecall → s.readReg regA7 = 10 → Effect i s (.next s.halt)
  | trap (c : Cause) : Effect i s (.next (s.raise ⟨c, s.ipc, some (encode i)⟩))
  | stop : i = .ecall → scanString s (s.cfg.memSize + 1) (s.readReg regA0) = .endless →
      Effect i s (.fault .stringScanEndless)

theorem effect_loadInto {i : Instr} (h : isStore i = false) (rd : Reg) (a : Word) (n : Nat) (v : Word) (s : State) :
    Effect i s (loadInto i rd a n v s) := by
  obtain ⟨-, e⟩ | ⟨c, -, e⟩ := loadInto_cases i rd a n v s <;> rw [e]
  · exact .result rd v h
  · exact .trap c

theorem effect_storeFrom {i : Instr} (h : isStore i = true) (a v : Word) (n : Nat) (s : State) :
    Effect i s (storeFrom i a v n s) := by
  obtain ⟨hf, e⟩ | ⟨c, -, e⟩ := storeFrom_cases i a v n s <;> rw [e]
  · exact .store a v n h ((storeFault_eq_none ..).1 hf).2
  · exact .trap c

/-- A branch writes no register: it is a transfer whose link is discarded. -/
theorem effect_branchIf {i : Instr} (h : isTransfer i = true) (c : Bool) (imm : Word) (s : State) :
    Effect i s (branchIf c imm s) := by
  have : branchIf c imm s = .next ((s.writeReg 0 0).setPc (if c then s.ipc + imm else s.pc)) := rfl
  rw [this]; exact .transfer 0 0 _ h

theorem effect_ecall (s : State) : Effect .ecall s (execEcall s) := by
  obtain ⟨str, e⟩ | ⟨h, e⟩ | ⟨c, e⟩ | ⟨h, e⟩ := execEcall_cases s <;> rw [e]
  · exact .print str rfl
  · exact .halt rfl h
  · exact .trap c
  · exact .stop rfl h

/-- What `exec` can answer. -/
theorem exec_effect (i : Instr) (s : State) : Effect i s (exec i s) := by
  cases i with
  | lb rd rs1 imm => exact effect_loadInto rfl ..
  | lh rd rs1 imm => exact effect_loadInto rfl ..
  | lw rd rs1 imm => exact effect_loadInto rfl ..
  | lbu rd rs1 imm => exact effect_loadInto rfl ..
  | lhu rd rs1 imm => exact effect_loadInto rfl ..
  | sb rs1 rs2 imm => exact effect_storeFrom rfl ..
  | sh rs1 rs2 imm => exact effect_storeFrom rfl ..
  | sw rs1 rs2 imm => exact effect_storeFrom rfl ..
  | ecall => exact effect_ecall s
  | jal rd imm => exact .transfer _ _ _ rfl
  | jalr rd rs1 imm => exact .transfer _ _ _ rfl
  | beq rs1 rs2 imm => exact effect_branchIf rfl ..
  | bne rs1 rs2 imm => exact effect_branchIf rfl ..
  | blt rs1 rs2 imm => exact effect_branchIf rfl ..
  | bge rs1 rs2 imm => exact effect_branchIf rfl ..
  | bltu rs1 rs2 imm => exact effect_branchIf rfl ..
  | bgeu rs1 rs2 imm => exact effect_branchIf rfl ..
  | fence bits => exact .trap _
  | ebreak => exact .trap _
  | systemOther bits => exact .trap _
  | _ => exact .result _ _ rfl

/-! ## One step -/

/-- What `step` can do: stay put, fault at fetch, fault at decode, or execute the decoded instruction. -/
theorem step_cases (s : State) :
    (s.runnable = false ∧ step s = .next s) ∨
      (s.runnable = true ∧ ∃ c, fetchFault s.cfg s.pc = some c ∧ step s = .next (s.enterStep.raise ⟨c, s.pc, none⟩)) ∨
      (s.runnable = true ∧ fetchFault s.cfg s.pc = none ∧ (∃ e, decode s.fetchedWord = .error e) ∧
        step s = .next (s.atExecute.raise ⟨.illegalInstruction s.fetchedWord, s.pc, some s.fetchedWord⟩)) ∨
      (s.runnable = true ∧ fetchFault s.cfg s.pc = none ∧ ∃ i, decode s.fetchedWord = .ok i ∧
        step s = endStep (exec i s.atExecute)) := by
  unfold step
  cases hr : s.runnable
  · exact .inl ⟨rfl, rfl⟩
  · refine .inr ?_
    simp only [if_true]
    cases hf : fetchFault s.cfg s.pc with
    | some c => exact .inl ⟨trivial, c, rfl, rfl⟩
    | none =>
      cases hd : decode s.fetchedWord with
      | error e =>
        refine .inr (.inl ⟨trivial, rfl, ⟨e, rfl⟩, ?_⟩)
        simp only [raiseFetched, State.ipc_atExecute]
      | ok i => exact .inr (.inr ⟨trivial, rfl, i, rfl, rfl⟩)

/-- The faults a fetch can have, with their order (R150). -/
theorem fetchFault_cases {c : Config} {pc : Word} {f : Cause} (h : fetchFault c pc = some f) :
    (pcAligned pc = false ∧ f = .instructionAddressMisaligned pc) ∨
      (pcAligned pc = true ∧ inBounds c.memSize pc 4 = false ∧ f = .instructionAccessFault pc) := by
  unfold fetchFault at h
  split at h <;> [split at h; skip] <;> simp_all

/-- A fetch without a fault: aligned and in bounds (R81). -/
theorem fetchFault_eq_none (c : Config) (pc : Word) :
    fetchFault c pc = none ↔ pcAligned pc = true ∧ inBounds c.memSize pc 4 = true := by
  unfold fetchFault
  split <;> [split; skip] <;> simp_all

/-- `pc[1:0] = 0b00` as arithmetic (R39). -/
theorem pcAligned_iff (pc : Word) : pcAligned pc = true ↔ pc.toNat % 4 = 0 := by
  rw [pcAligned, beq_iff_eq, ← BitVec.toNat_inj]
  simp [BitVec.extractLsb'_toNat]

end Sys2Proof.Machine
end

