-- ==== Sys2Proof/Laws/PerInstr.lean ====
section
/-! SUPPORT. One lemma per instruction: its word is one of its row of the opcode table. -/

namespace Sys2Proof.Laws.RowMatch

/-- The word of an instruction matches its row of spec/opcode_table.json. -/
def Statement (i : Instr) : Prop := i.op.row.covers (encode i) = true

/-! ## What a row's mask leaves of each format's word -/

theorem encodeR_mask (f7 : BitVec 7) (r2 : BitVec 5) (r1 : Reg) (f3 : BitVec 3) (d : Reg) (op : BitVec 7) :
    encodeR f7 r2 r1 f3 d op &&& 0xFE00707F = placeAt 25 f7 ||| placeAt 12 f3 ||| placeAt 0 op := by
  apply BitVec.eq_of_getLsbD_eq
  intro i hi
  simp only [encodeR, BitVec.getLsbD_and, BitVec.getLsbD_or, getLsbD_placeAt]
  interval_cases i <;> simp

theorem encodeI_mask (imm : Word) (r1 : Reg) (f3 : BitVec 3) (d : Reg) (op : BitVec 7) :
    encodeI imm r1 f3 d op &&& 0x0000707F = placeAt 12 f3 ||| placeAt 0 op := by
  apply BitVec.eq_of_getLsbD_eq
  intro i hi
  simp only [encodeI, BitVec.getLsbD_and, BitVec.getLsbD_or, getLsbD_placeAt]
  interval_cases i <;> simp

theorem encodeS_mask (imm : Word) (r2 r1 : Reg) (f3 : BitVec 3) (op : BitVec 7) :
    encodeS imm r2 r1 f3 op &&& 0x0000707F = placeAt 12 f3 ||| placeAt 0 op := by
  apply BitVec.eq_of_getLsbD_eq
  intro i hi
  simp only [encodeS, BitVec.getLsbD_and, BitVec.getLsbD_or, getLsbD_placeAt]
  interval_cases i <;> simp

theorem encodeB_mask (imm : Word) (r2 r1 : Reg) (f3 : BitVec 3) (op : BitVec 7) :
    encodeB imm r2 r1 f3 op &&& 0x0000707F = placeAt 12 f3 ||| placeAt 0 op := by
  apply BitVec.eq_of_getLsbD_eq
  intro i hi
  simp only [encodeB, BitVec.getLsbD_and, BitVec.getLsbD_or, getLsbD_placeAt]
  interval_cases i <;> simp

theorem encodeU_mask (imm : Word) (d : Reg) (op : BitVec 7) :
    encodeU imm d op &&& 0x0000007F = placeAt 0 op := by
  apply BitVec.eq_of_getLsbD_eq
  intro i hi
  simp only [encodeU, BitVec.getLsbD_and, BitVec.getLsbD_or, getLsbD_placeAt]
  interval_cases i <;> simp

theorem encodeJ_mask (imm : Word) (d : Reg) (op : BitVec 7) :
    encodeJ imm d op &&& 0x0000007F = placeAt 0 op := by
  apply BitVec.eq_of_getLsbD_eq
  intro i hi
  simp only [encodeJ, BitVec.getLsbD_and, BitVec.getLsbD_or, getLsbD_placeAt]
  interval_cases i <;> simp

theorem encodeRaw_mask (bits : BitVec 25) (op : BitVec 7) :
    encodeRaw bits op &&& 0x0000007F = placeAt 0 op := by
  apply BitVec.eq_of_getLsbD_eq
  intro i hi
  simp only [encodeRaw, BitVec.getLsbD_and, BitVec.getLsbD_or, getLsbD_placeAt]
  interval_cases i <;> simp

/-! ## Instruction by instruction -/

theorem add (rd rs1 rs2 : Reg) : Statement (.add rd rs1 rs2) :=
  beq_iff_eq.2 ((encodeR_mask _ _ _ _ _ _).trans rfl)

theorem sub (rd rs1 rs2 : Reg) : Statement (.sub rd rs1 rs2) :=
  beq_iff_eq.2 ((encodeR_mask _ _ _ _ _ _).trans rfl)

theorem sll (rd rs1 rs2 : Reg) : Statement (.sll rd rs1 rs2) :=
  beq_iff_eq.2 ((encodeR_mask _ _ _ _ _ _).trans rfl)

theorem slt (rd rs1 rs2 : Reg) : Statement (.slt rd rs1 rs2) :=
  beq_iff_eq.2 ((encodeR_mask _ _ _ _ _ _).trans rfl)

theorem sltu (rd rs1 rs2 : Reg) : Statement (.sltu rd rs1 rs2) :=
  beq_iff_eq.2 ((encodeR_mask _ _ _ _ _ _).trans rfl)

theorem xor (rd rs1 rs2 : Reg) : Statement (.xor rd rs1 rs2) :=
  beq_iff_eq.2 ((encodeR_mask _ _ _ _ _ _).trans rfl)

theorem srl (rd rs1 rs2 : Reg) : Statement (.srl rd rs1 rs2) :=
  beq_iff_eq.2 ((encodeR_mask _ _ _ _ _ _).trans rfl)

theorem sra (rd rs1 rs2 : Reg) : Statement (.sra rd rs1 rs2) :=
  beq_iff_eq.2 ((encodeR_mask _ _ _ _ _ _).trans rfl)

theorem or (rd rs1 rs2 : Reg) : Statement (.or rd rs1 rs2) :=
  beq_iff_eq.2 ((encodeR_mask _ _ _ _ _ _).trans rfl)

theorem and (rd rs1 rs2 : Reg) : Statement (.and rd rs1 rs2) :=
  beq_iff_eq.2 ((encodeR_mask _ _ _ _ _ _).trans rfl)

theorem addi (rd rs1 : Reg) (imm : Word) : Statement (.addi rd rs1 imm) :=
  beq_iff_eq.2 ((encodeI_mask _ _ _ _ _).trans rfl)

theorem slti (rd rs1 : Reg) (imm : Word) : Statement (.slti rd rs1 imm) :=
  beq_iff_eq.2 ((encodeI_mask _ _ _ _ _).trans rfl)

theorem sltiu (rd rs1 : Reg) (imm : Word) : Statement (.sltiu rd rs1 imm) :=
  beq_iff_eq.2 ((encodeI_mask _ _ _ _ _).trans rfl)

theorem xori (rd rs1 : Reg) (imm : Word) : Statement (.xori rd rs1 imm) :=
  beq_iff_eq.2 ((encodeI_mask _ _ _ _ _).trans rfl)

theorem ori (rd rs1 : Reg) (imm : Word) : Statement (.ori rd rs1 imm) :=
  beq_iff_eq.2 ((encodeI_mask _ _ _ _ _).trans rfl)

theorem andi (rd rs1 : Reg) (imm : Word) : Statement (.andi rd rs1 imm) :=
  beq_iff_eq.2 ((encodeI_mask _ _ _ _ _).trans rfl)

theorem slli (rd rs1 : Reg) (shamt : BitVec 5) : Statement (.slli rd rs1 shamt) :=
  beq_iff_eq.2 ((encodeR_mask _ _ _ _ _ _).trans rfl)

theorem srli (rd rs1 : Reg) (shamt : BitVec 5) : Statement (.srli rd rs1 shamt) :=
  beq_iff_eq.2 ((encodeR_mask _ _ _ _ _ _).trans rfl)

theorem srai (rd rs1 : Reg) (shamt : BitVec 5) : Statement (.srai rd rs1 shamt) :=
  beq_iff_eq.2 ((encodeR_mask _ _ _ _ _ _).trans rfl)

theorem lb (rd rs1 : Reg) (imm : Word) : Statement (.lb rd rs1 imm) :=
  beq_iff_eq.2 ((encodeI_mask _ _ _ _ _).trans rfl)

theorem lh (rd rs1 : Reg) (imm : Word) : Statement (.lh rd rs1 imm) :=
  beq_iff_eq.2 ((encodeI_mask _ _ _ _ _).trans rfl)

theorem lw (rd rs1 : Reg) (imm : Word) : Statement (.lw rd rs1 imm) :=
  beq_iff_eq.2 ((encodeI_mask _ _ _ _ _).trans rfl)

theorem lbu (rd rs1 : Reg) (imm : Word) : Statement (.lbu rd rs1 imm) :=
  beq_iff_eq.2 ((encodeI_mask _ _ _ _ _).trans rfl)

theorem lhu (rd rs1 : Reg) (imm : Word) : Statement (.lhu rd rs1 imm) :=
  beq_iff_eq.2 ((encodeI_mask _ _ _ _ _).trans rfl)

theorem sb (rs1 rs2 : Reg) (imm : Word) : Statement (.sb rs1 rs2 imm) :=
  beq_iff_eq.2 ((encodeS_mask _ _ _ _ _).trans rfl)

theorem sh (rs1 rs2 : Reg) (imm : Word) : Statement (.sh rs1 rs2 imm) :=
  beq_iff_eq.2 ((encodeS_mask _ _ _ _ _).trans rfl)

theorem sw (rs1 rs2 : Reg) (imm : Word) : Statement (.sw rs1 rs2 imm) :=
  beq_iff_eq.2 ((encodeS_mask _ _ _ _ _).trans rfl)

theorem ecall : Statement .ecall := rfl

theorem jal (rd : Reg) (imm : Word) : Statement (.jal rd imm) :=
  beq_iff_eq.2 ((encodeJ_mask _ _ _).trans rfl)

theorem jalr (rd rs1 : Reg) (imm : Word) : Statement (.jalr rd rs1 imm) :=
  beq_iff_eq.2 ((encodeI_mask _ _ _ _ _).trans rfl)

theorem beq (rs1 rs2 : Reg) (imm : Word) : Statement (.beq rs1 rs2 imm) :=
  beq_iff_eq.2 ((encodeB_mask _ _ _ _ _).trans rfl)

theorem bne (rs1 rs2 : Reg) (imm : Word) : Statement (.bne rs1 rs2 imm) :=
  beq_iff_eq.2 ((encodeB_mask _ _ _ _ _).trans rfl)

theorem blt (rs1 rs2 : Reg) (imm : Word) : Statement (.blt rs1 rs2 imm) :=
  beq_iff_eq.2 ((encodeB_mask _ _ _ _ _).trans rfl)

theorem bge (rs1 rs2 : Reg) (imm : Word) : Statement (.bge rs1 rs2 imm) :=
  beq_iff_eq.2 ((encodeB_mask _ _ _ _ _).trans rfl)

theorem bltu (rs1 rs2 : Reg) (imm : Word) : Statement (.bltu rs1 rs2 imm) :=
  beq_iff_eq.2 ((encodeB_mask _ _ _ _ _).trans rfl)

theorem bgeu (rs1 rs2 : Reg) (imm : Word) : Statement (.bgeu rs1 rs2 imm) :=
  beq_iff_eq.2 ((encodeB_mask _ _ _ _ _).trans rfl)

theorem lui (rd : Reg) (imm : Word) : Statement (.lui rd imm) :=
  beq_iff_eq.2 ((encodeU_mask _ _ _).trans rfl)

theorem auipc (rd : Reg) (imm : Word) : Statement (.auipc rd imm) :=
  beq_iff_eq.2 ((encodeU_mask _ _ _).trans rfl)

theorem fence (bits : BitVec 25) : Statement (.fence bits) :=
  beq_iff_eq.2 ((encodeRaw_mask _ _).trans rfl)

theorem ebreak : Statement .ebreak := rfl

theorem systemOther (bits : BitVec 25) : Statement (.systemOther bits) :=
  beq_iff_eq.2 ((encodeRaw_mask _ _).trans rfl)

end Sys2Proof.Laws.RowMatch
end

