-- ==== Sys2Proof/Laws/Run.lean ====
section
/-! SUPPORT. The loop of `run` (R84): its equations, and a loop over two budgets cut in two. -/

namespace Sys2Proof.Machine

@[simp] theorem runSteps_zero (s : State) : runSteps 0 s = .next (s, 0) := rfl

/-- A loop in a run state without steps performs none. -/
theorem runSteps_of_not_runnable {s : State} (h : s.runnable = false) (max : Nat) : runSteps max s = .next (s, 0) := by
  cases max with
  | zero => rfl
  | succ max => simp [runSteps, h]

/-- A loop that can step steps, then goes on with a budget less by one. -/
theorem runSteps_succ {s t : State} (h : s.runnable = true) (hs : step s = .next t) (max : Nat) :
    runSteps (max + 1) s =
      match runSteps max t with
      | .next (u, n) => .next (u, n + 1)
      | .fault f => .fault f
      | .refused r => .refused r := by
  cases hm : runSteps max t <;> simp [runSteps, h, hs, hm]

/-- A step of any core's run. -/
theorem run_succ_of_step (M : Host.Core) {s t : M.State} (hs : M.step s = .next t) (k : Nat) :
    M.run (k + 1) s = M.run k t := by
  simp only [Host.Core.run, hs]

/-- A step of this core's run. -/
theorem core_run_succ {s t : State} (hs : step s = .next t) (k : Nat) :
    Sys2Proof.core.run (k + 1) s = Sys2Proof.core.run k t := run_succ_of_step Sys2Proof.core hs k

/-- Applying the ceiling twice is applying it once. -/
@[simp] theorem State.ceiling_ceiling (s : State) : s.ceiling.ceiling = s.ceiling := by
  unfold State.ceiling
  cases h : s.run <;> simp [State.runnable, h]

/-- A loop over a sum of budgets is the two loops one after the other. -/
theorem runSteps_add (m n : Nat) (s : State) :
    runSteps (m + n) s =
      match runSteps m s with
      | .next (t, k) =>
        (match runSteps n t with
        | .next (u, j) => .next (u, k + j)
        | .fault f => .fault f
        | .refused r => .refused r)
      | .fault f => .fault f
      | .refused r => .refused r := by
  induction m generalizing s with
  | zero =>
    simp only [Nat.zero_add, runSteps_zero]
    cases runSteps n s <;> simp
  | succ m ih =>
    cases hr : s.runnable with
    | false => simp only [runSteps_of_not_runnable hr, Nat.add_zero]
    | true =>
      rw [Nat.succ_add]
      simp only [runSteps, hr, if_true]
      cases step s with
      | next t =>
        simp only [ih]
        cases runSteps m t with
        | next p =>
          simp only
          cases runSteps n p.1 with
          | next q => simp only [Nat.add_right_comm]
          | fault f => rfl
          | refused r => rfl
        | fault f => rfl
        | refused r => rfl
      | fault f => rfl
      | refused r => rfl

end Sys2Proof.Machine
end

