-- ==== Sys2Proof/Laws/Statements.lean ====
section
/-! SUPPORT. From what a meaning is to the terms of the statements: what suffices for writesOnly, trapsWith, and the
others of Sys2Proof/Safety.lean. -/

namespace Sys2Proof.Machine

/-- A raise is precise: it changes the record, the run state and the output only (R140). -/
theorem trappedFrom_raise (s : State) (r : TrapRecord) : trappedFrom s (s.raise r) s.pc r :=
  ⟨fun _ => rfl, fun _ => rfl, rfl, rfl, rfl, rfl, rfl⟩

/-- A raise after the step was entered is precise for the state before the step. -/
theorem trappedFrom_raise_of {s u : State} (hr : sameRegs s u) (hm : u.mem = s.mem) (hc : u.cfg = s.cfg)
    (ho : u.out = s.out) (r : TrapRecord) : trappedFrom s (u.raise r) u.pc r :=
  ⟨hr, fun a => by simp [hm], hc, rfl, rfl, rfl, by simp [ho]⟩

/-- An instruction that answers a raise traps. -/
theorem trapsWith_of_raise {i : Instr} {s : State} {c : Cause}
    (h : exec i s = .next (s.raise ⟨c, s.ipc, some (encode i)⟩)) : trapsWith i s c :=
  ⟨_, h, trappedFrom_raise s _⟩

/-- An instruction that answers a register write writes that register only. -/
theorem writesOnly_of_writeReg {i : Instr} {s : State} {rd : Reg} {v w : Word}
    (h : exec i s = .next (s.writeReg rd w)) (e : w = v) : writesOnly i s rd v := by
  subst e
  exact ⟨_, h, fun r => State.readReg_writeReg s rd r w, rfl, fun _ => rfl, rfl, rfl, rfl, rfl⟩

/-- The row an instruction's word is in. -/
theorem inRow_of_rowMatch {i : Instr} (h : Laws.RowMatch.Statement i) :
    inRow i i.op.row.mask i.op.row.pattern := by
  rw [Laws.RowMatch.Statement, TableRow.covers, beq_iff_eq] at h
  exact h

theorem misaligned_iff_access (c : Config) (a : Word) (n : Nat) : misaligned c a n = true ↔ accessMisaligned c a n :=
  misaligned_iff c a n

theorem inBounds_iff_access (c : Config) (a : Word) (n : Nat) : inBounds c.memSize a n = true ↔ accessInBounds c a n :=
  inBounds_iff c.memSize a n

/-- A load in all its forms, from the shared operation (R111). -/
theorem loadsAs_of_loadInto {i : Instr} {s : State} {rd : Reg} {a : Word} {n : Nat} {v w : Word}
    (h : exec i s = loadInto i rd a n w s) (e : w = v) : loadsAs i s rd a n v := by
  subst e
  refine ⟨fun hm hb => ?_, fun hm => ?_, fun hm hb => ?_⟩
  · refine writesOnly_of_writeReg ?_ rfl
    rw [h, loadInto, (loadFault_eq_none ..).2 ⟨?_, (inBounds_iff_access ..).2 hb⟩]
    exact Bool.eq_false_iff.2 fun e => hm ((misaligned_iff_access ..).1 e)
  · refine trapsWith_of_raise ?_
    rw [h, loadInto, loadFault, if_pos ((misaligned_iff_access ..).2 hm)]; rfl
  · refine trapsWith_of_raise ?_
    rw [h, loadInto, loadFault, if_neg (by rwa [misaligned_iff_access]), if_neg (by rwa [inBounds_iff_access])]; rfl

/-- A byte of a value, cut out or divided out. -/
theorem extractLsb'_byte (v : Word) (k : Nat) : v.extractLsb' (8 * k) 8 = BitVec.ofNat 8 (v.toNat / 2 ^ (8 * k)) := by
  apply BitVec.eq_of_toNat_eq
  simp [BitVec.extractLsb'_toNat, Nat.shiftRight_eq_div_pow]

/-- A store in all its forms, from the shared operation (R117). -/
theorem storesAs_of_storeFrom {i : Instr} {s : State} {a v : Word} {n : Nat} (hn : n ≤ 2 ^ 32)
    (h : exec i s = storeFrom i a v n s) : storesAs i s a n v := by
  refine ⟨fun hm hb => ?_, fun hm => ?_, fun hm hb => ?_⟩
  · refine ⟨s.store a v n, ?_, fun _ => rfl, rfl, ⟨rfl, rfl, rfl, rfl⟩, fun k hk => ?_, fun b hb => ?_⟩
    · rw [h, storeFrom, (storeFault_eq_none ..).2 ⟨?_, (inBounds_iff_access ..).2 hb⟩]
      exact Bool.eq_false_iff.2 fun e => hm ((misaligned_iff_access ..).1 e)
    · rw [State.store_mem, read_storeBytes_of_lt _ _ _ hn hk, extractLsb'_byte]
    · rw [State.store_mem, read_storeBytes_of_not_covers _ _ _ _ _ hb]
  · refine trapsWith_of_raise ?_
    rw [h, storeFrom, storeFault, if_pos ((misaligned_iff_access ..).2 hm)]; rfl
  · refine trapsWith_of_raise ?_
    rw [h, storeFrom, storeFault, if_neg (by rwa [misaligned_iff_access]), if_neg (by rwa [inBounds_iff_access])]; rfl

/-- An arithmetic right shift is division rounding down (R98). -/
theorem sshiftRight_eq_div (a : Word) (n : Nat) : a.sshiftRight n = BitVec.ofInt 32 (a.toInt / 2 ^ n) := by
  rw [BitVec.sshiftRight, Int.shiftRight_eq_div_pow]; norm_cast

/-- The low 5 bits as an amount (R63). -/
theorem shiftAmount_eq_mod (b : Word) : shiftAmount b = b.toNat % 32 := by simp [shiftAmount]

end Sys2Proof.Machine
end

