-- ==== Sys2Proof/Machine/Layout.lean ====
section
/-! DEFINITION. The layout of a program image (R165): what the host passes to `load`. The core does not run it. -/

namespace Sys2Proof.Machine

/-- One item of a program, its operands already resolved to numbers (R72, R165). -/
inductive Item where
  /-- `.text` -/
  | text
  /-- `.data` -/
  | data
  /-- `.align N`: to the next multiple of `N` bytes -/
  | align (n : Nat)
  /-- `.global name`: it changes no layout -/
  | global (name : String)
  /-- `name:` -/
  | label (name : String)
  /-- an instruction's 32-bit word -/
  | instruction (w : Word)
  /-- `.byte` -/
  | byte (v : Byte)
  /-- `.half` -/
  | half (v : BitVec 16)
  /-- `.word` -/
  | word (v : Word)
  /-- `.string`: its bytes, without the terminator; how a literal becomes bytes is the host's (R165) -/
  | string (bytes : List Byte)
  deriving DecidableEq, Repr

/-- The two cursors, the active segment, and what has been laid out (R165). -/
structure Layout where
  textCursor : Nat
  dataCursor : Nat
  inText : Bool
  image : Image
  labels : List (String × Nat)
  deriving DecidableEq, Repr

/-- Before the first item: the cursors at the segment bases, text active (R165). -/
def Layout.start (c : Config) : Layout := ⟨c.textBase, c.dataBase, true, [], []⟩

/-- The cursor of the active segment. -/
def Layout.cursor (l : Layout) : Nat := if l.inText then l.textCursor else l.dataCursor

/-- Move the cursor of the active segment. -/
def Layout.moveTo (l : Layout) (a : Nat) : Layout :=
  if l.inText then { l with textCursor := a } else { l with dataCursor := a }

/-- Place bytes at the cursor, lowest address first. -/
def Layout.place (l : Layout) (bytes : List Byte) : Layout :=
  { l with image := l.image ++ (bytes.zipIdx l.cursor).map (fun (p : Byte × Nat) => (p.2, p.1)) }.moveTo (l.cursor + bytes.length)

/-- The next multiple of `n` not below `a`; `.align 0` moves nothing (log 14). -/
def alignUp (a n : Nat) : Nat := if n = 0 then a else (a + n - 1) / n * n

/-- Lay out one item (R165). -/
def Layout.item (l : Layout) : Item → Layout
  | .text => { l with inText := true }
  | .data => { l with inText := false }
  | .global _ => l
  | .align n => l.moveTo (alignUp l.cursor n)
  | .label name => { l with labels := l.labels ++ [(name, l.cursor)] }
  | .instruction w => l.place (wordBytes w)
  | .byte v => l.place [v]
  | .half v => l.place [v.extractLsb' 0 8, v.extractLsb' 8 8]
  | .word v => l.place (wordBytes v)
  | .string bytes => l.place (bytes ++ [0])

/-- Lay out a program (R165). -/
def layout (c : Config) (items : List Item) : Layout := items.foldl Layout.item (Layout.start c)

/-- The address of a label, if it is defined. -/
def Layout.address (l : Layout) (name : String) : Option Word := (l.labels.lookup name).map (BitVec.ofNat 32)

/-- The operand a label stands for: `target_address - current_pc`, with the address of the instruction itself (R74). -/
def labelOffset (target current : Word) : Word := target - current

/-- Lay out a program and load it, at `main` if defined, else at `TEXT_BASE` (R164 to R166). -/
def loadProgram (items : List Item) (s : State) : Except LoadRefusal State :=
  let l := layout s.cfg items
  loadCommand l.image (entryPoint s.cfg (l.address "main")) s

end Sys2Proof.Machine
end

