-- ==== Sys2Proof/Tests/Slice0.lean ====
section
/-! SUPPORT. Tests: ill-formed terms refused, words decoded, one step at a time from the vectors of 95_test_vectors.md,
and a witness for the hypotheses of every statement. Expected results are the spec's. -/

namespace Sys2Proof.Tests

open Sys2Proof Sys2Proof.Machine

/-! ## Well-formedness refuses ill-formed terms -/

theorem test_wf_immediate12_range : Instr.wf (.addi 5 0 2048) = false ∧ Instr.wf (.addi 5 0 (-2049)) = false ∧
    Instr.wf (.lw 5 0 2048) = false ∧ Instr.wf (.sw 0 5 (-2049)) = false ∧ Instr.wf (.jalr 1 5 2048) = false ∧
    Instr.wf (.addi 5 0 2047) = true ∧ Instr.wf (.addi 5 0 (-2048)) = true := by decide

theorem test_wf_branch_offset : Instr.wf (.beq 0 0 4096) = false ∧ Instr.wf (.bne 0 0 (-4098)) = false ∧
    Instr.wf (.bltu 0 0 3) = false ∧ Instr.wf (.bgeu 0 0 4094) = true ∧ Instr.wf (.blt 0 0 (-4096)) = true := by decide

theorem test_wf_jump_offset : Instr.wf (.jal 1 1048576) = false ∧ Instr.wf (.jal 1 (-1048578)) = false ∧
    Instr.wf (.jal 1 5) = false ∧ Instr.wf (.jal 1 1048574) = true ∧ Instr.wf (.jal 1 (-1048576)) = true := by decide

theorem test_wf_upper_immediate : Instr.wf (.lui 5 0x12345001) = false ∧ Instr.wf (.auipc 5 0x800) = false ∧
    Instr.wf (.lui 5 0xFFFFF000) = true := by decide

theorem test_wf_system_bits : Instr.wf (.systemOther 0) = false ∧ Instr.wf (.systemOther 0x2000) = false ∧
    Instr.wf (.systemOther 0x2001) = true := by decide

/-! ## Decoding: words written from R52 to R57, and words of 95_test_vectors.md -/

theorem test_decode_registerAlu :
    decode 0b0000000_00110_00101_000_00111_0110011 = .ok (.add 7 5 6) ∧
    decode 0b0100000_00110_00101_000_00111_0110011 = .ok (.sub 7 5 6) ∧
    decode 0x006293B3 = .ok (.sll 7 5 6) ∧ decode 0x0062A3B3 = .ok (.slt 7 5 6) ∧
    decode 0x0062B3B3 = .ok (.sltu 7 5 6) ∧ decode 0x0062C3B3 = .ok (.xor 7 5 6) ∧
    decode 0x0062D3B3 = .ok (.srl 7 5 6) ∧ decode 0x4062D3B3 = .ok (.sra 7 5 6) ∧
    decode 0x0062E3B3 = .ok (.or 7 5 6) ∧ decode 0x0062F3B3 = .ok (.and 7 5 6) := by decide

theorem test_decode_immediateAlu :
    decode 0b111111111111_00101_000_00111_0010011 = .ok (.addi 7 5 (-1)) ∧
    decode 0b0100000_11111_00101_101_00111_0010011 = .ok (.srai 7 5 31) ∧
    decode 0xFFF2A393 = .ok (.slti 7 5 (-1)) ∧ decode 0x0012B393 = .ok (.sltiu 7 5 1) ∧
    decode 0x7FF2C393 = .ok (.xori 7 5 0x7FF) ∧ decode 0x8002E393 = .ok (.ori 7 5 (-2048)) ∧
    decode 0x0FF2F393 = .ok (.andi 7 5 0xFF) ∧ decode 0x01F29393 = .ok (.slli 7 5 31) ∧
    decode 0x0042D393 = .ok (.srli 7 5 4) ∧ decode 0x80000293 = .ok (.addi 5 0 (-2048)) := by decide

theorem test_decode_loads :
    decode 0b111111111100_00101_010_00110_0000011 = .ok (.lw 6 5 (-4)) ∧
    decode 0x00128303 = .ok (.lb 6 5 1) ∧ decode 0x00211E83 = .ok (.lh 29 2 2) ∧
    decode 0x00014E03 = .ok (.lbu 28 2 0) ∧ decode 0x00215F03 = .ok (.lhu 30 2 2) := by decide

theorem test_decode_stores :
    decode 0b1111111_00110_00101_010_11000_0100011 = .ok (.sw 5 6 (-8)) ∧
    decode 0x006281A3 = .ok (.sb 5 6 3) ∧ decode 0x7E629FA3 = .ok (.sh 5 6 2047) := by decide

theorem test_decode_branches :
    decode 0b1_111111_00110_00101_100_1100_1_1100011 = .ok (.blt 5 6 (-8)) ∧
    decode 0x00628863 = .ok (.beq 5 6 16) ∧ decode 0xF06290E3 = .ok (.bne 5 6 (-256)) ∧
    decode 0x0062D463 = .ok (.bge 5 6 8) ∧ decode 0x0062E463 = .ok (.bltu 5 6 8) ∧
    decode 0x0062F463 = .ok (.bgeu 5 6 8) ∧ decode 0x80000063 = .ok (.beq 0 0 (-4096)) ∧
    decode 0x7E000FE3 = .ok (.beq 0 0 4094) := by decide

theorem test_decode_jumps :
    decode 0b0_0000000000_1_00000000_00001_1101111 = .ok (.jal 1 2048) ∧
    decode 0xF01FF06F = .ok (.jal 0 (-256)) ∧ decode 0x800000EF = .ok (.jal 1 (-1048576)) ∧
    decode 0x0080006F = .ok (.jal 0 8) ∧ decode 0xFFC282E7 = .ok (.jalr 5 5 (-4)) := by decide

theorem test_decode_upper :
    decode 0b11111111111111111111_00101_0110111 = .ok (.lui 5 0xFFFFF000) ∧
    decode 0x80000297 = .ok (.auipc 5 0x80000000) := by decide

/-- The rows that are not admitted, by their words in 2.2: EBREAK, FENCE, MRET, CSRRW. -/
theorem test_decode_notAdmitted :
    decode 0x00000073 = .ok .ecall ∧ decode 0x00100073 = .ok .ebreak ∧
    decode 0x0FF0000F = .ok (.fence 0b0000111111110000000000000) ∧
    decode 0x30200073 = .ok (.systemOther 0b0011000000100000000000000) ∧
    decode 0x00001073 = .ok (.systemOther 0b0000000000000000000100000) := by decide

/-- Words of 2.2 that are Illegal. -/
theorem test_decode_illegal : List.all [0x00000000, 0xFFFFFFFF, 0x00000001, 0x00100073, 0x10500073, 0x30200073,
    0x00001073, 0x0000000F, 0x0FF0000F, 0x0000002F, 0x00000007, 0x00000053, 0x0000000B, 0x00000074, 0x02000033,
    0x40006033, 0x80000033, 0x40001013, 0x02001013, 0x42005013, 0x00001067, 0x00002063, 0x00003063, 0x00003003,
    0x00006003, 0x00003023] (fun w => (decodeAdmitted w).isNone) = true := by decide

/-- A word of 2.1: every immediate is extracted from every word. -/
theorem test_immediates : immI 0xFE62AC23 = -26 ∧ immS 0xFE62AC23 = -8 ∧ immB 0xFE62AC23 = -2056 ∧
    immU 0xFE62AC23 = 0xFE62A000 ∧ immJ 0xFE62AC23 = -874522 ∧ immB 0xFE62CCE3 = -8 ∧ immJ 0x41F2D393 = 187422 := by
  decide

theorem test_decodeTableWord : decodeTableWord 32 0x00000033 = some (.add 0 0 0) ∧
    decodeTableWord 32 0x00100073 = some .ebreak ∧ decodeTableWord 32 0 = none ∧
    decodeBytes [0x13, 0x05, 0x10, 0x04] = .ok (.addi 10 0 65) ∧ decodeBytes [0x13, 0x05] = .error .truncated := by
  decide

/-! ## One step at a time -/

/-- The cells of a word at an address (R36). -/
def cells (a : Nat) (w : Word) : List Host.Cell := (wordBytes w).zipIdx.map fun p => (a + p.2, p.1)

/-- The start of a vector of Part 2: the word at 0x100, some registers and bytes of memory, one option. -/
def start (w : Word) (regs : List (Reg × Word)) (mem : List Host.Cell := []) (m : MisalignedData := .bytewise) : State :=
  regs.foldl (fun s p => s.writeReg p.1 p.2)
    (loadedState { Config.example with misalignedData := m } (cells 0x100 w ++ mem) 0x100)

/-- A property of the state after one step. -/
def after (s : State) (p : State → Bool) : Bool :=
  match step s with
  | .next t => p t
  | .fault _ => false
  | .refused _ => false

/-- The step ended in Running at 0x104 with a register at a value. -/
def gives (s : State) (rd : Reg) (v : Word) : Bool :=
  after s fun t => t.readReg rd = v && t.pc = 0x104 && t.run = .running && t.mem = s.mem && t.out = s.out

/-- The step ended in Running at an address, with `ra` at a value and memory unchanged. -/
def goes (s : State) (pc : Word) (ra : Word := 0) : Bool :=
  after s fun t => t.pc = pc && t.readReg 1 = ra && t.run = .running && t.mem = s.mem

/-- The step ended in Trapped with a record and `pc`, registers and memory unchanged. -/
def traps (s : State) (r : TrapRecord) (pc : Word := 0x104) : Bool :=
  after s fun t => t.fault = some r && t.pc = pc && t.run = .trapped && t.mem = s.mem && t.regs = s.regs

/-- The step ended in Running at 0x104 with these bytes in memory from an address, and the registers unchanged. -/
def stores (s : State) (a : Nat) (bytes : List Byte) : Bool :=
  after s fun t => (bytes.zipIdx.all fun p => t.mem.read (a + p.2) = p.1) && t.regs = s.regs && t.pc = 0x104 &&
    t.run = .running

theorem test_add : gives (start 0x006283B3 [(5, 0x7FFFFFFF), (6, 1)]) 7 0x80000000 := by decide
theorem test_sub : gives (start 0x406283B3 [(5, 5), (6, 7)]) 7 0xFFFFFFFE := by decide
theorem test_sll : gives (start 0x006293B3 [(5, 3), (6, 0xFFFFFFE1)]) 7 6 := by decide
theorem test_slt : gives (start 0x0062A3B3 [(5, 0x80000000), (6, 0x7FFFFFFF)]) 7 1 := by decide
theorem test_sltu : gives (start 0x0062B3B3 [(5, 1), (6, 0xFFFFFFFF)]) 7 1 := by decide
theorem test_xor : gives (start 0x0062C3B3 [(5, 0xFF00FF00), (6, 0x0FF00FF0)]) 7 0xF0F0F0F0 := by decide
theorem test_srl : gives (start 0x0062D3B3 [(5, 0x80000000), (6, 0x20)]) 7 0x80000000 := by decide
theorem test_sra : gives (start 0x4062D3B3 [(5, 0xF0000000), (6, 4)]) 7 0xFF000000 := by decide
theorem test_or : gives (start 0x0062E3B3 [(5, 0xF0F0F0F0), (6, 0x0F0F0F0F)]) 7 0xFFFFFFFF := by decide
theorem test_and : gives (start 0x0062F3B3 [(5, 0xFF00FF00), (6, 0x0FF00FF0)]) 7 0x0F000F00 := by decide
/-- 2.3: `add zero, t0, t1` changes only `pc`. -/
theorem test_write_to_zero : gives (start 0x00628033 [(5, 5), (6, 7)]) 0 0 := by decide

theorem test_addi : gives (start 0x7FF28393 [(5, 0x7FFFFFFF)]) 7 0x800007FE := by decide
theorem test_slti : gives (start 0xFFF2A393 [(5, 0x80000000)]) 7 1 := by decide
theorem test_sltiu : gives (start 0xFFF2B393 [(5, 0xFFFFFFFE)]) 7 1 := by decide
theorem test_xori : gives (start 0x7FF2C393 [(5, 0xFFFFFFFF)]) 7 0xFFFFF800 := by decide
theorem test_ori : gives (start 0x8002E393 [(5, 5)]) 7 0xFFFFF805 := by decide
theorem test_andi : gives (start 0xFF02F393 [(5, 0x12345678)]) 7 0x12345670 := by decide
theorem test_slli : gives (start 0x01F29393 [(5, 3)]) 7 0x80000000 := by decide
theorem test_srli : gives (start 0x0042D393 [(5, 0xF0000000)]) 7 0x0F000000 := by decide
theorem test_srai : gives (start 0x4042D393 [(5, 0xF0000000)]) 7 0xFF000000 := by decide

/-- The memory of the vectors of 2.5. -/
def loadMem : List Host.Cell := [(0x1000, 0x80), (0x1001, 0xFF), (0x1002, 0x7F), (0x1003, 0x01), (0x1004, 0xAA)]

theorem test_lb : gives (start 0x00028303 [(5, 0x1000)] loadMem) 6 0xFFFFFF80 := by decide
theorem test_lbu : gives (start 0x0002C303 [(5, 0x1000)] loadMem) 6 0x80 := by decide
theorem test_lh : gives (start 0x00029303 [(5, 0x1000)] loadMem) 6 0xFFFFFF80 := by decide
theorem test_lhu_misaligned_bytewise : gives (start 0x0032D303 [(5, 0x1000)] loadMem) 6 0xAA01 := by decide
theorem test_lw_misaligned_bytewise : gives (start 0x0012A303 [(5, 0x1000)] loadMem) 6 0xAA017FFF := by decide
theorem test_lb_address_wraps : traps (start 0xFFF28303 [] loadMem)
    ⟨.loadAccessFault 0xFFFFFFFF, 0x100, some 0xFFF28303⟩ := by decide
theorem test_lw_misaligned_before_bounds : traps (start 0x0002A303 [(5, 0x3FFFFE)] loadMem .fault)
    ⟨.loadAddressMisaligned 0x3FFFFE, 0x100, some 0x0002A303⟩ := by decide

/-- The memory of the vectors of 2.6. -/
def storeMem : List Host.Cell := (List.range 8).map fun k => (0x1000 + k, 0x11)

theorem test_sb : stores (start 0x006281A3 [(5, 0x1000), (6, 0x12345678)] storeMem) 0x1000
    [0x11, 0x11, 0x11, 0x78, 0x11] := by decide
theorem test_sh : stores (start 0x00629023 [(5, 0x1000), (6, 0x12345678)] storeMem) 0x1000
    [0x78, 0x56, 0x11, 0x11] := by decide
theorem test_sw_misaligned_bytewise : stores (start 0x0062A0A3 [(5, 0x1000), (6, 0x22334400)] storeMem) 0x1000
    [0x11, 0x00, 0x44, 0x33, 0x22, 0x11] := by decide
theorem test_sw_no_partial_store : traps (start 0x0062A023 [(5, 0x3FFFFE), (6, 0x12345678)] storeMem)
    ⟨.storeAccessFault 0x3FFFFE, 0x100, some 0x0062A023⟩ := by decide
theorem test_sh_misaligned_fault : traps (start 0x006290A3 [(5, 0x1000)] storeMem .fault)
    ⟨.storeAddressMisaligned 0x1001, 0x100, some 0x006290A3⟩ := by decide
/-- A store keeps the canonical form, and a stored zero is no longer listed. -/
theorem test_store_canonical : storeBytes (storeMem.take 5) 0x1000 0x22003344 4 =
    [(0x1000, 0x44), (0x1001, 0x33), (0x1003, 0x22), (0x1004, 0x11)] := by decide

theorem test_ecall_printInt : after (start 0x73 [(17, 1), (10, 0x80000000)]) (fun t =>
    t.out = ["-2147483648".toList] && t.pc = 0x104 && t.run = .running) := by decide
theorem test_ecall_printString : after (start 0x73 [(17, 4), (10, 0x2000)] [(0x2000, 0x6F), (0x2001, 0x6B)]) (fun t =>
    t.outText = "ok".toList && t.pc = 0x104 && t.run = .running) := by decide

theorem test_beq_taken : goes (start 0x00628863 [(5, 7), (6, 7)]) 0x110 := by decide
theorem test_beq_not_taken : goes (start 0x00628863 [(5, 7), (6, 8)]) 0x104 := by decide
theorem test_bne : goes (start 0xF06290E3 [(5, 1), (6, 2)]) 0 := by decide
theorem test_blt : goes (start 0xFE62CCE3 [(5, 0x80000000), (6, 0x7FFFFFFF)]) 0xF8 := by decide
theorem test_bltu : goes (start 0xFE62ECE3 [(5, 0x80000000), (6, 0x7FFFFFFF)]) 0x104 := by decide
theorem test_bge_equal : goes (start 0x0062D463 [(5, 5), (6, 5)]) 0x108 := by decide
theorem test_bge_signed : goes (start 0x0062D463 [(5, 0xFFFFFFFE), (6, 0xFFFFFFFF)]) 0x104 := by decide
theorem test_bgeu : goes (start 0x0062F463 [(5, 0xFFFFFFFF), (6, 1)]) 0x108 := by decide
theorem test_jal : goes (start 0x800000EF []) 0xFFF00100 0x104 := by decide
theorem test_jalr : goes (start 0x003280E7 [(5, 0x2000)]) 0x2002 0x104 := by decide
theorem test_jalr_base_is_link : after (start 0xFFC282E7 [(5, 0x2000)]) (fun t =>
    t.pc = 0x1FFC && t.readReg 5 = 0x104) := by decide
theorem test_lui : gives (start 0xFFFFF2B7 []) 5 0xFFFFF000 := by decide
theorem test_auipc : gives (start 0x80000297 []) 5 0x80000100 := by decide

theorem test_fence_traps : traps (start 0x0FF0000F []) ⟨.illegalInstruction 0x0FF0000F, 0x100, some 0x0FF0000F⟩ := by
  decide
theorem test_ebreak_traps : traps (start 0x00100073 []) ⟨.illegalInstruction 0x00100073, 0x100, some 0x00100073⟩ := by
  decide
theorem test_mret_traps : traps (start 0x30200073 []) ⟨.illegalInstruction 0x30200073, 0x100, some 0x30200073⟩ := by
  decide
/-- 2.10: zeroed memory is Illegal. -/
theorem test_zero_word_traps : traps (start 0 []) ⟨.illegalInstruction 0, 0x100, some 0⟩ := by decide
theorem test_fetch_misaligned : traps (start 0x13 [] |>.setPc 0x102) ⟨.instructionAddressMisaligned 0x102, 0x102, none⟩
    0x102 := by decide
theorem test_fetch_outOfBounds : traps (start 0x13 [] |>.setPc 0x400000) ⟨.instructionAccessFault 0x400000, 0x400000, none⟩
    0x400000 := by decide

/-! ## The state after reset, `load`, `run`, and the host's words -/

theorem test_reset_canonical : Memory.wf State.reset.mem ∧ Memory.within State.reset.cfg.memSize State.reset.mem := by
  decide
theorem test_withFetchWord : after (State.reset.withFetchWord 32 0x7FF00293) (fun t =>
    t.readReg 5 = 0x7FF && t.pc = 4 && t.run = .running) := by decide
/-- E5: `run` performs two steps and reports Halted; at the limit the check comes first (2.10). -/
theorem test_run_halts : (match runCommand 2 (loadedState Config.example (cells 0 0x00A00893 ++ cells 4 0x73) 0) with
    | .next r => r.steps = 2 && r.outcome = some .halted && r.state.pc = 8
    | _ => false) = true := by decide
/-- E6, P7 with a smaller limit. -/
theorem test_run_limit : (match runCommand 3 (loadedState Config.example (cells 0 0x6F) 0) with
    | .next r => r.steps = 3 && r.outcome = some .instructionLimitExceeded && r.state.run = .limitExceeded && r.state.pc = 0
    | _ => false) = true := by decide
theorem test_load_refuses : loadCommand [(0x400000, 1)] 0 State.reset = .error .outsideMemory ∧
    loadCommand [(4, 1), (4, 1)] 0 State.reset = .error .duplicateAddress := by decide

/-- R165: text and data cursors, `.global`, `.align`, little-endian data, a terminated string. -/
theorem test_layout :
    let l := layout Config.example [.global "main", .label "main", .instruction 0x13, .data, .byte 1, .align 4, .half 0x1234,
      .string [0x68], .label "end", .text, .instruction 0x73]
    l.image = [(0, 0x13), (1, 0), (2, 0), (3, 0), (0x100000, 1), (0x100004, 0x34), (0x100005, 0x12), (0x100006, 0x68),
      (0x100007, 0), (4, 0x73), (5, 0), (6, 0), (7, 0)] ∧ l.address "end" = some 0x100008 := by decide

/-- E1: `j skip` over one `nop`. -/
theorem test_label_offset :
    let l := layout Config.example [.instruction 0, .instruction 0x13, .label "skip"]
    (l.address "skip").map (fun a => (Pseudo.j (labelOffset a 0)).expand.map encode) = some [0x0080006F] := by decide

theorem test_register_names : resolveRegister "fp" = some 8 ∧ resolveRegister "s0" = some 8 ∧
    resolveRegister "x31" = some 31 ∧ resolveRegister "t6" = some 31 ∧ resolveRegister "a7" = some 17 ∧
    resolveRegister "x32" = none := by decide

/-- R75 with E1, E4 and P2: the words of `j +8`, `li a0, 65`, `ret`, `mv a0, t0`. -/
theorem test_pseudo : (Pseudo.j 8).expand.map encode = [0x0080006F] ∧ (Pseudo.li 10 65).expand.map encode = [0x04100513] ∧
    Pseudo.ret.expand.map encode = [0x00008067] ∧ (Pseudo.mv 10 5).expand.map encode = [0x00028513] ∧
    (Pseudo.li 5 0x80000001).expand.map encode = [0x800002B7, 0x00128293] := by decide

/-- The ends of R75's range for one ADDI, and log 19's reading of a constant above it. -/
theorem test_li : Pseudo.expand (.li 5 (-2048)) = [.addi 5 0 (-2048)] ∧ Pseudo.expand (.li 5 2047) = [.addi 5 0 2047] ∧
    Pseudo.expand (.li 5 2048) = [.lui 5 0x1000, .addi 5 5 (-2048)] ∧
    Pseudo.expand (.li 5 0xFFFFFFFF) = [.lui 5 0, .addi 5 5 (-1)] := by decide

/-! ## Witnesses: a state and operands that meet the hypotheses of each statement, clause by clause -/

theorem test_witness_DecodeOfEncodeIsTheInstruction :
    Instr.wf (.addi 7 5 (-2048)) = true ∧ Instr.wf (.sw 5 6 2047) = true ∧ Instr.wf (.beq 5 6 4094) = true ∧
    Instr.wf (.jal 1 (-1048576)) = true ∧ Instr.wf (.lui 5 0xFFFFF000) = true ∧ Instr.wf (.systemOther 1) = true := by
  decide

theorem test_witness_EncodeOfDecodeIsTheWord : decode 0xFE62CCE3 = .ok (.blt 5 6 (-8)) := by decide

theorem test_witness_DecoderFollowsTheOpcodeTable :
    decodeAdmitted 0x41F2D393 = some (.srai 7 5 31) ∧ decodeAdmitted 0x42005013 = none := by decide

/-- A step of the machine from a state that can fetch: NOP in the last word of memory (2.10). -/
def lastNop : State := loadedState Config.example (cells 0x3FFFFC 0x13) 0x3FFFFC

theorem test_witness_StepRunsTheDecodedInstruction : ∃ (s t : State) (i : Instr), s.runnable = true ∧
    s.pc.toNat % 4 = 0 ∧ accessInBounds s.cfg s.pc 4 ∧ decode (s.wordAt s.pc) = .ok i ∧
    exec i { s with run := .running, regs := s.regs.set 0 0, pc := s.pc + 4 } = .next t :=
  ⟨lastNop, _, .addi 0 0 0, by decide, by decide, (inBounds_iff_access ..).1 (by decide), by decide, rfl⟩

theorem test_witness_FetchFaultsLeavePcInPlace_misaligned :
    (lastNop.setPc 0x3FFFFE).runnable = true ∧ (lastNop.setPc 0x3FFFFE).pc.toNat % 4 ≠ 0 := by decide

theorem test_witness_FetchFaultsLeavePcInPlace_outOfBounds : (lastNop.setPc 0x400000).runnable = true ∧
    (lastNop.setPc 0x400000).pc.toNat % 4 = 0 ∧ ¬ accessInBounds lastNop.cfg 0x400000 4 :=
  ⟨by decide, by decide, by rw [← inBounds_iff_access]; decide⟩

theorem test_witness_IllegalWordsTrap : (start 0 []).runnable = true ∧ (start 0 []).pc.toNat % 4 = 0 ∧
    accessInBounds (start 0 []).cfg (start 0 []).pc 4 ∧ decodeAdmitted ((start 0 []).wordAt (start 0 []).pc) = none :=
  ⟨by decide, by decide, (inBounds_iff_access ..).1 (by decide), by decide⟩

theorem test_witness_IllegalWordsTrap_words :
    (0x0000002F : Word).toNat % 128 ∉ [0x33, 0x13, 0x03, 0x23, 0x73, 0x63, 0x67, 0x6F, 0x37, 0x17] ∧
    (0x00000002 : Word).toNat % 4 ≠ 3 ∧ (∀ r ∈ admittedRows, r.covers 0x40006033 = false) ∧ ((0x00100073 : Word).toNat % 128 = 0x73 ∧ (0x00100073 : Word) ≠ 0x73) := by decide

theorem test_witness_CommandsActByRunState : State.reset.run = .unloaded ∧ lastNop.halt.run = .halted ∧
    (lastNop.raise ⟨.illegalInstruction 0, 0, none⟩).run = .trapped := by decide

theorem test_witness_EveryStepAnswersANextState : State.reset.cfg.wf ∧ lastNop.cfg.wf := by decide

theorem reset_inv : State.reset.Inv := ⟨by decide, by decide, by decide, by decide, by decide, by simp [State.reset]⟩

theorem lastNop_inv : lastNop.Inv := ⟨by decide, by decide, by decide, by decide, by decide, by simp [lastNop, loadedState]⟩

theorem test_witness_EveryStepKeepsTheInvariant : ∃ s t : State, s.runnable = true ∧ s.Inv ∧ step s = .next t :=
  ⟨lastNop, _, by decide, lastNop_inv, rfl⟩

/-- The smallest memory R7 allows. -/
theorem test_witness_ResetMeetsTheInvariant : Config.wf ⟨4, 3, 3, 0, .fault⟩ ∧ ¬ Config.wf ⟨3, 0, 0, 0, .fault⟩ := by decide

theorem test_witness_ReachableStatesMeetTheInvariant : ∃ s, s ≠ State.reset ∧ Reachable Config.example s :=
  ⟨lastNop, by decide, .command (.load (cells 0x3FFFFC 0x13) 0x3FFFFC) .reset rfl⟩

theorem test_witness_TrapsArePrecise : ∃ s t : State, s.runnable = true ∧ step s = .next t ∧ t.run = .trapped :=
  ⟨lastNop.setPc 0x400000, _, by decide, rfl, rfl⟩

theorem test_witness_AtMostOneRegisterChangesPerStep : ∃ s t : State, step s = .next t ∧ t.readReg 5 ≠ s.readReg 5 :=
  ⟨start 0x123452B7 [], _, rfl, by decide⟩

theorem test_witness_OnlyStoresChangeMemory : ∃ s t : State, step s = .next t ∧ t.mem.read 0x1003 ≠ s.mem.read 0x1003 :=
  ⟨start 0x006281A3 [(5, 0x1000), (6, 0x12345678)], _, rfl, by decide⟩

theorem test_witness_OutputOnlyGrows : ∃ s t : State, step s = .next t ∧ t.out = s.out ++ ["7".toList] :=
  ⟨start 0x73 [(17, 1), (10, 7)], _, rfl, by decide⟩

theorem test_witness_OnlySyscallTenHalts : ∃ s t : State, s.runnable = true ∧ step s = .next t ∧ t.run = .halted :=
  ⟨start 0x73 [(17, 10)], _, by decide, rfl, by decide⟩

theorem test_witness_PcAdvancesByFour : ∃ s t : State, s.runnable = true ∧ s.pc.toNat % 4 = 0 ∧
    accessInBounds s.cfg s.pc 4 ∧ step s = .next t ∧ ∀ i, decode (s.wordAt s.pc) = .ok i → isTransfer i = false := by
  refine ⟨lastNop, _, by decide, by decide, (inBounds_iff_access ..).1 (by decide), rfl, fun i h => ?_⟩
  have e : decode (lastNop.wordAt lastNop.pc) = .ok (.addi 0 0 0) := by decide
  rw [e] at h; cases h; rfl

theorem test_witness_RegisterZeroIsHardwired : ∃ s t : State, s.runnable = true ∧ step s = .next t ∧ s.regs[0] ≠ 0 :=
  ⟨lastNop.writeCell 0 1, _, by decide, rfl, by decide⟩

theorem test_witness_ShiftImmediateResults :
    (fieldOf 0x02001013 0 7 = 0x13 ∧ fieldOf 0x02001013 12 3 = 1 ∧ fieldOf 0x02001013 25 7 ≠ 0) ∧
    (fieldOf 0x42005013 0 7 = 0x13 ∧ fieldOf 0x42005013 12 3 = 5 ∧ fieldOf 0x42005013 25 7 ≠ 0 ∧
      fieldOf 0x42005013 25 7 ≠ 0x20) := by decide

/-- The accesses of LoadResults and StoreResults that complete: the last one of each size in memory, without and with
the option. -/
theorem test_witness_accesses_complete : ∀ m : MisalignedData, ∀ n ∈ [1, 2, 4],
    let c := { Config.example with misalignedData := m }
    ¬ accessMisaligned c (BitVec.ofNat 32 (0x400000 - n)) n ∧ accessInBounds c (BitVec.ofNat 32 (0x400000 - n)) n := by
  intro m n hn
  dsimp only
  rw [← misaligned_iff_access, ← inBounds_iff_access]
  cases m <;> fin_cases hn <;> decide

/-- The accesses refused as misaligned, one of them out of bounds too. -/
theorem test_witness_accesses_misaligned : ∀ p ∈ [((0x3FFFFF : Word), 2), (0x1001, 4), (0x1002, 4), (0x3FFFFE, 4)],
    accessMisaligned { Config.example with misalignedData := .fault } p.1 p.2 := by
  intro p hp
  rw [← misaligned_iff_access]
  fin_cases hp <;> decide

/-- The first accesses of each size out of bounds, and one across the wrap of addresses. -/
theorem test_witness_accesses_outOfBounds : ∀ p ∈ [((0x400000 : Word), 1), (0x3FFFFF, 2), (0x3FFFFD, 4), (0xFFFFFFFF, 4)],
    ¬ accessMisaligned Config.example p.1 p.2 ∧ ¬ accessInBounds Config.example p.1 p.2 := by
  intro p hp
  rw [← misaligned_iff_access, ← inBounds_iff_access]
  fin_cases hp <;> decide

/-- The states of LoadResults and StoreResults put any address in `rs1`: here the last word of memory. -/
theorem test_witness_LoadResults_StoreResults :
    (start 0x0002A303 [(5, 0x400000)]).readReg 5 + (-4) = 0x3FFFFC := by decide

/-- Each condition of BranchResults taken and not taken, at equal and at opposite operands. -/
theorem test_witness_BranchResults : (lastNop.pc = 0x3FFFF8 + 4) ∧
    (let a : Word := 5; let b : Word := 5
     a = b ∧ ¬ a ≠ b ∧ ¬ a.toInt < b.toInt ∧ b.toInt ≤ a.toInt ∧ ¬ a.toNat < b.toNat ∧ b.toNat ≤ a.toNat) ∧
    (let a : Word := 0xFFFFFFFF; let b : Word := 0
     ¬ a = b ∧ a ≠ b ∧ a.toInt < b.toInt ∧ ¬ b.toInt ≤ a.toInt ∧ ¬ a.toNat < b.toNat ∧ b.toNat ≤ a.toNat) ∧
    (let a : Word := 0x7FFFFFFF; let b : Word := 0x80000000
     ¬ a.toInt < b.toInt ∧ a.toNat < b.toNat ∧ ¬ b.toNat ≤ a.toNat) := by decide

theorem test_witness_JumpResults : lastNop.pc = 0x3FFFF8 + 4 ∧ fieldOf 0x00001067 0 7 = 0x67 ∧
    fieldOf 0x00001067 12 3 ≠ 0 := by decide

theorem test_witness_UpperImmediateResults : (start 0x80000297 []).atExecute.pc = 0x100 + 4 := by decide

/-- One state for each service of EcallServices, with characters at both sides of 128. -/
theorem test_witness_EcallServices : (start 0x73 [(17, 1)]).readReg 17 = 1 ∧ (start 0x73 [(17, 10)]).readReg 17 = 10 ∧
    ((start 0x73 [(17, 11), (10, 127)]).readReg 17 = 11 ∧ ((start 0x73 [(17, 11), (10, 127)]).readReg 10).toNat < 128) ∧
    ((start 0x73 [(17, 11), (10, 128)]).readReg 17 = 11 ∧ 128 ≤ ((start 0x73 [(17, 11), (10, 128)]).readReg 10).toNat) :=
  ⟨by decide, by decide, by decide, by decide⟩

/-- Numbers next to a service's, and one equal to a service's in its low byte only (2.7). -/
theorem test_witness_EcallServices_unsupported : ∀ n ∈ [(0 : Word), 2, 5, 12, 0x10000001],
    (start 0x73 [(17, n)]).readReg 17 = n ∧ n ≠ 1 ∧ n ≠ 4 ∧ n ≠ 10 ∧ n ≠ 11 := by
  intro n hn
  fin_cases hn <;> decide

theorem test_witness_IntegersAreSpelledInDecimal : (start 0x73 [(17, 1), (10, 0x80000000)]).readReg 17 = 1 ∧
    (start 0x73 [(17, 1), (10, 0x80000000)]).readReg 10 = 0x80000000 := by decide

/-- A string of no bytes, of two bytes, and two bytes that run into the end of memory (2.7). -/
theorem test_witness_EcallPrintsAString :
    (let s := start 0x73 [(17, 4), (10, 0x2000)]
     s.cfg.wf ∧ s.readReg 17 = 4 ∧ 0x2000 < s.cfg.memSize ∧ s.mem.read 0x2000 = 0) ∧
    (let s := start 0x73 [(17, 4), (10, 0x2000)] [(0x2000, 0x6F), (0x2001, 0xEB)]
     s.readReg 17 = 4 ∧ s.mem.read 0x2000 = 0x6F ∧ s.mem.read 0x2001 = 0xEB ∧ 0x2002 < s.cfg.memSize ∧
       s.mem.read 0x2002 = 0) ∧
    (let s := start 0x73 [(17, 4), (10, 0x3FFFFE)] [(0x3FFFFE, 0x61), (0x3FFFFF, 0x62)]
     s.readReg 17 = 4 ∧ s.mem.read 0x3FFFFE = 0x61 ∧ s.mem.read 0x3FFFFF = 0x62 ∧ s.cfg.memSize ≤ 0x400000) := by
  decide

theorem test_witness_StoredWordLoadsBack : ∃ (s : State) (rs1 rd : Reg) (imm : Word), rd ≠ 0 ∧
    ¬ accessMisaligned s.cfg (s.readReg rs1 + imm) 4 ∧ accessInBounds s.cfg (s.readReg rs1 + imm) 4 :=
  ⟨start 0 [(5, 0x400000)] [] .fault, 5, 6, -4, by decide, by rw [← misaligned_iff_access]; decide,
    (inBounds_iff_access ..).1 (by decide)⟩

/-- `sw t1, 0(t0)` at 0x100 with `t0 = 0x104`. -/
theorem test_witness_StoreIntoTheNextInstructionIsFetched :
    let s := start 0x0062A023 [(5, 0x104), (6, 0x13)]
    s.runnable = true ∧ s.pc.toNat % 4 = 0 ∧ accessInBounds s.cfg s.pc 4 ∧
      decode (s.wordAt s.pc) = .ok (.sw 5 6 0) ∧ s.readReg 5 + 0 = s.pc + 4 ∧ accessInBounds s.cfg (s.pc + 4) 4 :=
  ⟨by decide, by decide, (inBounds_iff_access ..).1 (by decide), by decide, by decide, (inBounds_iff_access ..).1 (by decide)⟩

/-- An image that ends at the last byte of memory, one that goes a byte further, one with an address twice. -/
theorem test_witness_LoadPlacesTheImageOrRefuses :
    ((∀ c ∈ [((0 : Nat), (1 : Byte)), (0x3FFFFF, 2)], c.1 < State.reset.cfg.memSize) ∧
      ([((0 : Nat), (1 : Byte)), (0x3FFFFF, 2)].map Prod.fst).Nodup) ∧
    (∃ c ∈ [((0x400000 : Nat), (1 : Byte))], State.reset.cfg.memSize ≤ c.1) ∧
    ¬ ([((4 : Nat), (1 : Byte)), (4, 1)].map Prod.fst).Nodup := by decide

/-- A run that ends before its limit, and one that reaches it. -/
theorem test_witness_RunCountsItsSteps :
    (∃ r, runCommand 2 (start 0x73 [(17, 10)]) = .next r ∧ r.steps < 2 ∧ 0 < r.steps ∧ r.state.run ≠ .unloaded) ∧
    (∃ r, runCommand 1 lastNop = .next r ∧ r.steps = 1) ∧ lastNop.runnable = true ∧ lastNop.cfg.wf :=
  ⟨⟨_, rfl, by decide⟩, ⟨_, rfl, by decide⟩, by decide, by decide⟩

theorem test_witness_TwoRunsAreAsOne : ∃ (s : State) (r q : RunResult), runCommand 1 s = .next r ∧
    runCommand 1 r.state = .next q ∧ r.steps = 1 ∧ q.steps = 1 ∧ s.runnable = true :=
  ⟨lastNop, _, _, rfl, rfl, by decide, by decide, by decide⟩

theorem test_witness_WithFetchWordRunsTheWord : State.reset.cfg.wf ∧ decodeTableWord 32 0x7FF00293 = some (.addi 5 0 2047) ∧
    lastNop.runnable = true ∧ lastNop.pc.toNat % 4 = 0 ∧ accessInBounds lastNop.cfg lastNop.pc 4 :=
  ⟨by decide, by decide, by decide, by decide, (inBounds_iff_access ..).1 (by decide)⟩

/-- `addi x0, x0, 1024` of 2.2, a word in ADDI's row. -/
theorem test_witness_WordsExecuteWhateverPlacedThem :
    let s := start 0x40000013 []
    s.runnable = true ∧ s.pc.toNat % 4 = 0 ∧ accessInBounds s.cfg s.pc 4 ∧ Op.addi.row ∈ admittedRows ∧
      s.wordAt s.pc &&& Op.addi.row.mask = Op.addi.row.pattern :=
  ⟨by decide, by decide, (inBounds_iff_access ..).1 (by decide), by decide, by decide⟩

end Sys2Proof.Tests
end

/-! Proofs of the statements about the core's state (10_state.md): the ECALL word among the decoded words, the states a
step can leave, the invariant update by update, and the obligations from them. -/

namespace Sys2Proof

/-! ## The ECALL word (R70) -/

/-- A word is its opcode and the 25 bits above it. -/
theorem encodeRaw_upperBitsOf_opcodeOf (w : Word) : encodeRaw (upperBitsOf w) (opcodeOf w) = w := by
  apply BitVec.eq_of_getLsbD_eq
  intro k hk
  simp only [encodeRaw, upperBitsOf, opcodeOf, BitVec.getLsbD_or, getLsbD_placeAt, BitVec.getLsbD_extractLsb']
  by_cases h : k < 7
  · simp [hk, h]
  · have hlt : k - 7 < 25 := by omega
    have hadd : 7 + (k - 7) = k := by omega
    simp [hk, h, hlt, hadd, Nat.le_of_not_lt h]

/-- Only opcode 0x73 decodes to ECALL. -/
theorem opcodeOf_of_decode_ecall {w : Word} (h : decode w = .ok .ecall) : opcodeOf w = 0x73#7 := by
  unfold decode at h
  split at h
  case h_1 => unfold decodeRegisterAlu at h; split at h <;> cases h
  case h_2 =>
    unfold decodeImmediateAlu at h
    split at h
    case h_7 => unfold decodeShiftImmediate at h; split at h <;> cases h
    all_goals cases h
  case h_3 => unfold decodeLoad at h; split at h <;> cases h
  case h_4 => unfold decodeStore at h; split at h <;> cases h
  case h_5 hop => exact hop
  case h_6 => unfold decodeBranch at h; split at h <;> cases h
  case h_7 => unfold decodeJalr at h; split at h <;> cases h
  all_goals cases h

/-- A system word is ECALL exactly when the bits above its opcode are zero. -/
theorem decodeSystem_eq_ecall_iff (w : Word) : decodeSystem w = .ecall ↔ upperBitsOf w = 0 := by
  unfold decodeSystem
  split
  case isTrue h => simp [h]
  case isFalse h => split <;> exact iff_of_false (by simp) h

/-- ECALL is a single word. -/
theorem decode_eq_ecall_iff (w : Word) : decode w = .ok .ecall ↔ w = 0x00000073 := by
  refine ⟨fun h => ?_, fun h => by subst h; rfl⟩
  have hop : opcodeOf w = 0x73#7 := opcodeOf_of_decode_ecall h
  have hsys : decodeSystem w = .ecall := by simpa [decode, hop] using h
  have hup : upperBitsOf w = 0 := (decodeSystem_eq_ecall_iff w).1 hsys
  calc w = encodeRaw (upperBitsOf w) (opcodeOf w) := (encodeRaw_upperBitsOf_opcodeOf w).symm
    _ = encodeRaw 0 0x73#7 := by rw [hup, hop]
    _ = 0x00000073 := by decide

end Sys2Proof

namespace Sys2Proof.Machine

/-! ## The states a step can leave (R78 to R83) -/

/-- `t` is a state one step from `s` can leave: `s` itself where no step exists, a trap at fetch, the trap of an Illegal
word, or what executing the decoded instruction leaves, with the cell of `x0` forced to 0. -/
inductive StepTo (s : State) : State → Prop where
  | idle : s.runnable = false → StepTo s s
  | fetchTrap (c : Cause) : s.runnable = true → fetchFault s.cfg s.pc = some c →
      StepTo s (s.enterStep.raise ⟨c, s.pc, none⟩)
  | illegal (e : Reject) : s.runnable = true → fetchFault s.cfg s.pc = none → decode s.fetchedWord = .error e →
      StepTo s (s.atExecute.raise ⟨.illegalInstruction s.fetchedWord, s.pc, some s.fetchedWord⟩)
  | execute (i : Instr) (u : State) : s.runnable = true → fetchFault s.cfg s.pc = none →
      decode s.fetchedWord = .ok i → exec i s.atExecute = .next u → StepTo s u.forceX0

/-- A step that ends in a next state executed to a next state. -/
theorem endStep_eq_next {o : Outcome} {t : State} (h : endStep o = .next t) : ∃ u, o = .next u ∧ u.forceX0 = t := by
  cases o with
  | next u => exact ⟨u, rfl, by simpa [endStep] using h⟩
  | fault f => cases h
  | refused r => cases h

/-- Every next state of `step` is one of those. -/
theorem stepTo_of_step {s t : State} (h : step s = .next t) : StepTo s t := by
  obtain ⟨hr, e⟩ | ⟨hr, c, hf, e⟩ | ⟨hr, hf, ⟨err, hd⟩, e⟩ | ⟨hr, hf, i, hd, e⟩ := step_cases s <;> rw [e] at h
  · cases h; exact .idle hr
  · cases h; exact .fetchTrap c hr hf
  · cases h; exact .illegal err hr hf hd
  · obtain ⟨u, hu, rfl⟩ := endStep_eq_next h
    exact .execute i u hr hf hd hu

/-- What an instruction that answers a next state did. -/
theorem effect_of_exec {i : Instr} {s u : State} (h : exec i s = .next u) : Effect i s (.next u) :=
  h ▸ exec_effect i s

/-- A fetch from an aligned address in bounds has no fault (R81). -/
theorem fetchFault_of_inBounds {s : State} (ha : s.pc.toNat % 4 = 0) (hb : accessInBounds s.cfg s.pc 4) :
    fetchFault s.cfg s.pc = none :=
  (fetchFault_eq_none ..).2 ⟨(pcAligned_iff _).2 ha, (inBounds_iff_access ..).2 hb⟩

/-! ## What the effects do to `pc` and the output (R20, R25) -/

/-- Only a control transfer writes `pc` during Execute. -/
theorem pc_of_effect {i : Instr} {s u : State} (h : Effect i s (.next u)) (hi : isTransfer i = false) : u.pc = s.pc := by
  cases h with
  | transfer rd v t ht => rw [hi] at ht; cases ht
  | result | store | print | halt | trap => rfl

/-- An instruction appends at most one fragment, and only by a trap or as ECALL. -/
theorem out_of_effect {i : Instr} {s u : State} (h : Effect i s (.next u)) :
    u.out = s.out ∨ ∃ str, u.out = s.out ++ [str] ∧ (u.run = .trapped ∨ i = .ecall) := by
  cases h with
  | result | transfer | store | halt => exact .inl rfl
  | print str hi => exact .inr ⟨str, rfl, .inr hi⟩
  | trap c => exact .inr ⟨_, rfl, .inl rfl⟩

/-! ## The invariant, update by update -/

/-- A write to any register leaves the cell of `x0` alone (R15). -/
theorem State.writeReg_zeroCell (s : State) (r : Reg) (v : Word) : (s.writeReg r v).regs[0] = s.regs[0] := by
  by_cases hr : r = 0
  · simp [State.writeReg, hr]
  · have hne : r.val ≠ 0 := fun e => hr (Fin.ext e)
    simp [State.writeReg, hr, hne]

/-- A run state that is not Trapped has no fault record. -/
theorem State.Inv.fault_eq_none {s : State} (h : s.Inv) (hr : s.run ≠ .trapped) : s.fault = none := by
  rw [← Option.not_isSome_iff_eq_none, h.faultIffTrapped]
  exact hr

/-- A state in which a step exists is not trapped. -/
theorem State.run_ne_trapped_of_runnable {s : State} (h : s.runnable = true) : s.run ≠ .trapped := by
  intro e
  simp [State.runnable, e] at h

/-- A new run state other than Trapped keeps the invariant of a state without a fault record. -/
theorem State.Inv.setRun {s : State} (h : s.Inv) (hf : s.fault = none) {r : RunState} (hr : r ≠ .trapped) :
    State.Inv { s with run := r } :=
  { h with
    faultIffTrapped := by simp [hf, hr] }

theorem State.Inv.halt {s : State} (h : s.Inv) (hf : s.fault = none) : s.halt.Inv :=
  h.setRun hf (by decide)

theorem State.Inv.setPc {s : State} (h : s.Inv) (a : Word) : (s.setPc a).Inv := { h with }

theorem State.Inv.forceX0 {s : State} (h : s.Inv) : s.forceX0.Inv := { h with zeroCell := s.forceX0_zeroCell }

theorem State.Inv.writeReg {s : State} (h : s.Inv) (r : Reg) (v : Word) : (s.writeReg r v).Inv :=
  { h with zeroCell := (s.writeReg_zeroCell r v).trans h.zeroCell }

/-- A store needs its bounds: it lists no address outside the buffer (R35). -/
theorem State.Inv.store {s : State} (h : s.Inv) (a v : Word) {n : Nat} (hb : inBounds s.cfg.memSize a n = true) :
    (s.store a v n).Inv :=
  { h with
    memOk := storeBytes_wf h.memOk a v n
    memWithin := storeBytes_within h.memWithin ((inBounds_iff ..).1 hb) }

/-- Output keeps the invariant as long as no diagnostic has to stay last (R152). -/
theorem State.Inv.output {s : State} (h : s.Inv) (hf : s.fault = none) (str : Text) : (s.output str).Inv :=
  { h with diagLast := fun r hr => by simp [hf] at hr }

/-- A raise sets the record, the run state and the last output together (R140, R152). -/
theorem State.Inv.raise {s : State} (h : s.Inv) (r : TrapRecord) : (s.raise r).Inv :=
  { h with
    faultIffTrapped := by simp
    diagLast := fun q hq => by
      obtain rfl : r = q := by simpa using hq
      simp }

theorem State.Inv.enterStep {s : State} (h : s.Inv) (hf : s.fault = none) : s.enterStep.Inv :=
  h.forceX0.setRun hf (by decide)

theorem State.Inv.atExecute {s : State} (h : s.Inv) (hf : s.fault = none) : s.atExecute.Inv :=
  (h.enterStep hf).setPc _

/-- Executing an instruction where no fault is recorded keeps the invariant. -/
theorem State.Inv.of_effect {i : Instr} {s u : State} (h : s.Inv) (hf : s.fault = none) (he : Effect i s (.next u)) :
    u.Inv := by
  cases he with
  | result rd v _ => exact h.writeReg rd v
  | transfer rd v a _ => exact (h.writeReg rd v).setPc a
  | store a v n _ hb => exact h.store a v hb
  | print str _ => exact h.output hf str
  | halt _ _ => exact h.halt hf
  | trap c => exact h.raise _

/-- A step keeps the invariant. -/
theorem State.Inv.of_stepTo {s t : State} (h : s.Inv) (ht : StepTo s t) : t.Inv := by
  have hf (hr : s.runnable = true) : s.fault = none := h.fault_eq_none (State.run_ne_trapped_of_runnable hr)
  cases ht with
  | idle _ => exact h
  | fetchTrap c hr _ => exact (h.enterStep (hf hr)).raise _
  | illegal e hr _ _ => exact (h.atExecute (hf hr)).raise _
  | execute i u hr _ _ hu => exact ((h.atExecute (hf hr)).of_effect (hf hr) (effect_of_exec hu)).forceX0

/-- The state after reset meets the invariant. -/
theorem State.resetWith_inv {c : Config} (hc : c.wf) : (State.resetWith c).Inv where
  configOk := hc
  memOk := ⟨.nil, by simp⟩
  memWithin := by simp
  zeroCell := by simp
  faultIffTrapped := by simp
  diagLast := by simp

/-! ## The obligations -/

/-- Settles O13: the invariant holds through every update a step is made of. -/
theorem everyStepKeepsTheInvariant : Obligations.EveryStepKeepsTheInvariant :=
  fun _ _ hInv hstep => hInv.of_stepTo (stepTo_of_step hstep)

/-- Settles O14: every field of the state after reset, with R7's constraints on the configuration. -/
theorem resetMeetsTheInvariant : Obligations.ResetMeetsTheInvariant :=
  ⟨fun _ hc => State.resetWith_inv hc, State.resetWith_inv (by decide)⟩

/-- Settles O19: a trap appends its diagnostic, an instruction appends only as ECALL, which is one word. -/
theorem outputOnlyGrows : Obligations.OutputOnlyGrows := by
  intro s t hstep
  cases stepTo_of_step hstep with
  | idle _ => exact .inl rfl
  | fetchTrap c _ _ => exact .inr ⟨_, rfl, .inl rfl⟩
  | illegal e _ _ _ => exact .inr ⟨_, rfl, .inl rfl⟩
  | execute i u _ _ hd hu =>
    obtain hout | ⟨str, hout, htrap | rfl⟩ := out_of_effect (effect_of_exec hu)
    · exact .inl hout
    · exact .inr ⟨str, hout, .inl htrap⟩
    · exact .inr ⟨str, hout, .inr ((decode_eq_ecall_iff _).1 hd)⟩

/-- Settles O21: `pc` is advanced before decode, and only a transfer writes it afterwards. -/
theorem pcAdvancesByFour : Obligations.PcAdvancesByFour := by
  intro s t hrun halign hbounds hstep hno
  have hfetch : fetchFault s.cfg s.pc = none := fetchFault_of_inBounds halign hbounds
  cases stepTo_of_step hstep with
  | idle hr => rw [hrun] at hr; cases hr
  | fetchTrap c _ hf => rw [hfetch] at hf; cases hf
  | illegal e _ _ _ => rfl
  | execute i u _ _ hd hu => exact pc_of_effect (effect_of_exec hu) (hno i hd)

/-- Settles O22: reads of `x0` ignore its cell, writes to it are dropped, and each way a step can end has forced the
cell to 0. -/
theorem registerZeroIsHardwired : Obligations.RegisterZeroIsHardwired := by
  refine ⟨State.readReg_zero, fun s v r => ?_, fun s t hrun hstep => ?_⟩
  · exact State.readReg_congr (by simp [State.writeReg]) r
  · cases stepTo_of_step hstep with
    | idle hr => rw [hrun] at hr; cases hr
    | fetchTrap c _ _ => exact s.forceX0_zeroCell
    | illegal e _ _ _ => exact s.forceX0_zeroCell
    | execute i u _ _ _ _ => exact u.forceX0_zeroCell

end Sys2Proof.Machine

/-! Proofs of the statements about memory (20_memory.md): the bytes of a word, what a store leaves to be loaded and
fetched, what a step can do to memory, and the obligations from them. -/

namespace Sys2Proof

/-! ## Words and their bytes (R34, R36, R70) -/

/-- A word is the little-endian composition of its own bytes. -/
theorem littleEndian_extractLsb' (w : Word) :
    littleEndian (w.extractLsb' 0 8) (w.extractLsb' 8 8) (w.extractLsb' 16 8) (w.extractLsb' 24 8) = w := by
  have hw := w.isLt
  apply BitVec.eq_of_toNat_eq
  simp only [toNat_littleEndian, BitVec.extractLsb'_toNat, Nat.shiftRight_eq_div_pow]
  omega

/-- A word of 25 bits above an opcode, as a number. -/
theorem toNat_encodeRaw (bits : BitVec 25) (op : BitVec 7) :
    (encodeRaw bits op).toNat = bits.toNat * 128 + op.toNat := by
  rw [encodeRaw, BitVec.toNat_or, toNat_placeAt 7 bits (by omega), toNat_placeAt 0 op (by omega), Nat.pow_zero,
    Nat.mul_one, ← Nat.shiftLeft_eq, ← Nat.shiftLeft_add_eq_or_of_lt op.isLt, Nat.shiftLeft_eq]

/-- EBREAK is a single word (R70). -/
theorem encode_ebreak : encode .ebreak = 0x00100073 := by decide

end Sys2Proof

namespace Sys2Proof.Machine

/-! ## Reading 2 and 4 bytes (R34) -/

/-- A word of memory as a number. -/
theorem State.toNat_wordAt (s : State) (a : Word) :
    (s.wordAt a).toNat = (s.byteAt a).toNat + 2 ^ 8 * (s.byteAt (a + 1)).toNat + 2 ^ 16 * (s.byteAt (a + 2)).toNat +
      2 ^ 24 * (s.byteAt (a + 3)).toNat :=
  toNat_littleEndian ..

/-- A halfword of memory as a number. -/
theorem State.toNat_halfAt (s : State) (a : Word) :
    (s.halfAt a).toNat = (s.byteAt a).toNat + 2 ^ 8 * (s.byteAt (a + 1)).toNat := by
  have h0 := (s.byteAt a).isLt
  have h1 := (s.byteAt (a + 1)).isLt
  rw [State.halfAt, BitVec.toNat_setWidth, toNat_littleEndian, show (0 : Byte).toNat = 0 from rfl]
  omega

/-- Words are read from memory only, which forcing the cell of `x0` leaves alone. -/
@[simp] theorem State.wordAt_forceX0 (s : State) (a : Word) : s.forceX0.wordAt a = s.wordAt a := rfl

/-! ## Reading back a stored word (R35, R37) -/

/-- Byte `k` of a stored value. -/
theorem State.byteAt_store (s : State) (a v : Word) {n k : Nat} (hn : n ≤ 2 ^ 32) (hk : k < n) :
    (s.store a v n).byteAt (a + BitVec.ofNat 32 k) = v.extractLsb' (8 * k) 8 :=
  read_storeBytes_of_lt s.mem a v hn hk

/-- A stored word reads back at its address. -/
theorem State.wordAt_store (s : State) (a v : Word) : (s.store a v 4).wordAt a = v := by
  have hbyte (k : Nat) (hk : k < 4) := s.byteAt_store a v (by omega) hk
  have h0 : (s.store a v 4).byteAt a = v.extractLsb' 0 8 := by simpa using hbyte 0 (by omega)
  have h1 : (s.store a v 4).byteAt (a + 1) = v.extractLsb' 8 8 := hbyte 1 (by omega)
  have h2 : (s.store a v 4).byteAt (a + 2) = v.extractLsb' 16 8 := hbyte 2 (by omega)
  have h3 : (s.store a v 4).byteAt (a + 3) = v.extractLsb' 24 8 := hbyte 3 (by omega)
  rw [State.wordAt, h0, h1, h2, h3, littleEndian_extractLsb']

/-- The halfword 2 bytes into a stored word is its upper half. -/
theorem State.toNat_halfAt_store (s : State) (a v : Word) :
    ((s.store a v 4).halfAt (a + 2)).toNat = v.toNat / 2 ^ 16 := by
  have hv := v.isLt
  have h2 : (s.store a v 4).byteAt (a + 2) = v.extractLsb' 16 8 := s.byteAt_store a v (k := 2) (by omega) (by omega)
  have h3 : (s.store a v 4).byteAt (a + 2 + 1) = v.extractLsb' 24 8 := by
    rw [show a + 2 + 1 = a + BitVec.ofNat 32 3 from BitVec.add_assoc ..]
    exact s.byteAt_store a v (by omega) (by omega)
  rw [State.toNat_halfAt, h2, h3]
  simp only [BitVec.extractLsb'_toNat, Nat.shiftRight_eq_div_pow]
  omega

/-! ## The upper half of a word access is an access of its own (R33, R38) -/

/-- Its address is a multiple of 2 when the word's is a multiple of 4. -/
theorem not_accessMisaligned_upperHalf {c : Config} {a : Word} (h : ¬ accessMisaligned c a 4) :
    ¬ accessMisaligned c (a + 2) 2 := by
  rintro ⟨hc, -, ha⟩
  exact h ⟨hc, by omega, fun h4 => ha (by bv_omega)⟩

/-- Its 2 bytes are the last 2 of the word. -/
theorem accessInBounds_upperHalf {c : Config} {a : Word} (h : accessInBounds c a 4) : accessInBounds c (a + 2) 2 := by
  intro k hk
  have haddr : a + 2 + BitVec.ofNat 32 k = a + BitVec.ofNat 32 (2 + k) := by
    rw [BitVec.add_assoc, BitVec.ofNat_add]; rfl
  rw [haddr]
  exact h (2 + k) (by omega)

/-- A word access at a multiple of 4 is never misaligned. -/
theorem not_accessMisaligned_of_mod_four {c : Config} {a : Word} (h : a.toNat % 4 = 0) : ¬ accessMisaligned c a 4 :=
  fun ⟨_, _, ha⟩ => ha h

/-! ## Instructions and steps that complete -/

/-- A store its checks let pass writes its bytes and does nothing else (R117). -/
theorem storeFrom_eq_store {s : State} {a : Word} {n : Nat} (hm : ¬ accessMisaligned s.cfg a n)
    (hb : accessInBounds s.cfg a n) (i : Instr) (v : Word) : storeFrom i a v n s = .next (s.store a v n) := by
  have hmis : misaligned s.cfg a n = false := Bool.eq_false_iff.2 fun e => hm ((misaligned_iff_access ..).1 e)
  rw [storeFrom, (storeFault_eq_none ..).2 ⟨hmis, (inBounds_iff_access ..).2 hb⟩]

/-- SW stores its register's word at base plus displacement (R120). -/
theorem exec_sw (rs1 rs2 : Reg) (imm : Word) (s : State) :
    exec (.sw rs1 rs2 imm) s = storeFrom (.sw rs1 rs2 imm) (s.readReg rs1 + imm) (s.readReg rs2) 4 s := rfl

/-- FENCE raises its own word (R46, R142). -/
theorem exec_fence (bits : BitVec 25) (s : State) : exec (.fence bits) s =
    .next (s.raise ⟨.illegalInstruction (encode (.fence bits)), s.ipc, some (encode (.fence bits))⟩) := rfl

/-- EBREAK raises its own word (R70, R142). -/
theorem exec_ebreak (s : State) :
    exec .ebreak s = .next (s.raise ⟨.illegalInstruction (encode .ebreak), s.ipc, some (encode .ebreak)⟩) := rfl

/-- Every other system word raises itself (R70, R142). -/
theorem exec_systemOther (bits : BitVec 25) (s : State) : exec (.systemOther bits) s =
    .next (s.raise ⟨.illegalInstruction (encode (.systemOther bits)), s.ipc, some (encode (.systemOther bits))⟩) := rfl

/-- The value of a register an instruction writes. -/
theorem exec_readReg_of_writesOnly {i : Instr} {s : State} {rd : Reg} {v : Word} (h : writesOnly i s rd v) (hrd : rd ≠ 0) :
    ∃ u, exec i s = .next u ∧ u.readReg rd = v := by
  obtain ⟨u, hu, hregs, -⟩ := h
  exact ⟨u, hu, by rw [hregs, if_neg hrd, if_pos rfl]⟩

/-- A step at an aligned `pc` in bounds whose instruction answers a next state (R80). -/
theorem step_eq_next_of_exec {s u : State} {i : Instr} (hrun : s.runnable = true) (halign : s.pc.toNat % 4 = 0)
    (hbounds : accessInBounds s.cfg s.pc 4) (hd : decode (s.wordAt s.pc) = .ok i) (hu : exec i s.atExecute = .next u) :
    step s = .next u.forceX0 := by
  have hfetch : fetchFault s.cfg s.pc = none := fetchFault_of_inBounds halign hbounds
  have hd' : decode s.fetchedWord = .ok i := hd
  simp only [step, hrun, if_true, hfetch, hd', hu, endStep]

/-! ## What the effects do to memory (R40) -/

/-- Only a store writes memory. -/
theorem mem_of_effect {i : Instr} {s u : State} (h : Effect i s (.next u)) (hi : isStore i = false) : u.mem = s.mem := by
  cases h with
  | store a v n hs _ => rw [hi] at hs; cases hs
  | result | transfer | print | halt | trap => rfl

/-! ## The obligations -/

/-- Settles O18: a step that does not execute leaves memory alone, and so does an instruction that is not a store. -/
theorem onlyStoresChangeMemory : Obligations.OnlyStoresChangeMemory := by
  intro s t a hstep hchanged
  cases stepTo_of_step hstep with
  | idle _ => exact absurd rfl hchanged
  | fetchTrap c _ _ => exact absurd rfl hchanged
  | illegal e _ _ _ => exact absurd rfl hchanged
  | execute i u hrun _ hd hu =>
    refine ⟨hrun, i, hd, ?_⟩
    by_contra hi
    have hmem : u.mem = s.mem := mem_of_effect (s := s.atExecute) (effect_of_exec hu) (Bool.eq_false_iff.2 hi)
    exact hchanged (by rw [State.forceX0_mem, hmem])

/-- Settles O35: the loads of the stored bytes complete, at the same address and 2 bytes into the same access. -/
theorem storedWordLoadsBack : Obligations.StoredWordLoadsBack := by
  intro s rs1 rs2 rd imm hrd a hm hb
  refine ⟨s.store a (s.readReg rs2) 4, storeFrom_eq_store hm hb _ _, ?_, ?_⟩
  · have hload : loadsAs (.lw rd rs1 imm) (s.store a (s.readReg rs2) 4) rd a 4 (s.readReg rs2) :=
      loadsAs_of_loadInto rfl (State.wordAt_store ..)
    exact exec_readReg_of_writesOnly (hload.1 hm hb) hrd
  · have haddr : s.readReg rs1 + (imm + 2) = a + 2 := (BitVec.add_assoc ..).symm
    have hvalue : ((s.store a (s.readReg rs2) 4).halfAt (s.readReg rs1 + (imm + 2))).setWidth 32 =
        BitVec.ofNat 32 ((s.readReg rs2).toNat / 2 ^ 16) := by
      rw [haddr, ← BitVec.ofNat_toNat, State.toNat_halfAt_store]
    have hload : loadsAs (.lhu rd rs1 (imm + 2)) (s.store a (s.readReg rs2) 4) rd (s.readReg rs1 + (imm + 2)) 2 _ :=
      loadsAs_of_loadInto rfl hvalue
    rw [haddr] at hload
    exact exec_readReg_of_writesOnly (hload.1 (not_accessMisaligned_upperHalf hm) (accessInBounds_upperHalf hb)) hrd

/-- Settles O36: the store completes at `pc + 4`, where the next step fetches. -/
theorem storeIntoTheNextInstructionIsFetched : Obligations.StoreIntoTheNextInstructionIsFetched := by
  intro s rs1 rs2 imm hrun halign hbounds hd haddr hnext
  have halign' : (s.pc + 4).toNat % 4 = 0 := by bv_omega
  have hexec : exec (.sw rs1 rs2 imm) s.atExecute = .next (s.atExecute.store (s.pc + 4) (s.readReg rs2) 4) := by
    rw [exec_sw, State.readReg_atExecute, State.readReg_atExecute, haddr]
    exact storeFrom_eq_store (s := s.atExecute) (not_accessMisaligned_of_mod_four halign') hnext _ _
  exact ⟨_, step_eq_next_of_exec hrun halign hbounds hd hexec, rfl, rfl,
    (State.wordAt_forceX0 ..).trans (State.wordAt_store ..)⟩

/-- Settles O8: the value of the little-endian composition. -/
theorem wordsAreReadLittleEndian : Obligations.WordsAreReadLittleEndian :=
  State.toNat_wordAt

/-- Settles O34: each of the three rows raises its own word, which is its opcode below its 25 bits. -/
theorem notAdmittedInstructionsTrap : Obligations.NotAdmittedInstructionsTrap := by
  intro s bits
  refine ⟨⟨?_, ?_⟩, ⟨?_, ?_⟩, ⟨?_, ?_⟩⟩
  · exact toNat_encodeRaw bits 0x0F
  · exact trapsWith_of_raise (exec_fence bits s)
  · exact encode_ebreak
  · exact trapsWith_of_raise (encode_ebreak ▸ exec_ebreak s)
  · exact toNat_encodeRaw bits 0x73
  · exact trapsWith_of_raise (exec_systemOther bits s)

end Sys2Proof.Machine

/-! Proofs of the statements about the encoding (30_encoding.md): fields and immediates as numbers, a word put together
from its fields, the decoder against the encoder and against the opcode table, and the obligations from them. -/

namespace Sys2Proof

open Machine (fieldOf operandsOf)

/-! ## Fields as numbers (R8, R51) -/

/-- A run of bits of a word is its field. -/
theorem toNat_extractLsb'_eq_fieldOf (w : Word) (lo n : Nat) : (w.extractLsb' lo n).toNat = fieldOf w lo n := by
  rw [BitVec.extractLsb'_toNat, Nat.shiftRight_eq_div_pow, fieldOf]

theorem rdOf_val (w : Word) : (rdOf w).val = fieldOf w 7 5 := toNat_extractLsb'_eq_fieldOf w 7 5

theorem rs1Of_val (w : Word) : (rs1Of w).val = fieldOf w 15 5 := toNat_extractLsb'_eq_fieldOf w 15 5

theorem rs2Of_val (w : Word) : (rs2Of w).val = fieldOf w 20 5 := toNat_extractLsb'_eq_fieldOf w 20 5

theorem toNat_shamtOf (w : Word) : (shamtOf w).toNat = fieldOf w 20 5 := toNat_extractLsb'_eq_fieldOf w 20 5

theorem toNat_upperBitsOf (w : Word) : (upperBitsOf w).toNat = fieldOf w 7 25 := toNat_extractLsb'_eq_fieldOf w 7 25

/-! ## The values of the immediates (R58 to R62) -/

/-- Bits put above others, as a number. -/
theorem toNat_append_eq_add {m n : Nat} (x : BitVec m) (y : BitVec n) : (x ++ y).toNat = x.toNat * 2 ^ n + y.toNat := by
  rw [BitVec.toNat_append, ← Nat.shiftLeft_add_eq_or_of_lt y.isLt, Nat.shiftLeft_eq]

/-- Sign extension to a word keeps the signed value of the bits. -/
theorem toInt_signExtend_eq_bmod {n : Nat} (v : BitVec n) (h : n ≤ 32) : (v.signExtend 32).toInt = Int.bmod v.toNat (2 ^ n) := by
  rw [BitVec.toInt_signExtend_of_le h, BitVec.toInt_eq_toNat_bmod]

/-- The range of `n + 1` bits sign-extended to a word. -/
theorem toInt_signExtend_bounds {n : Nat} (v : BitVec (n + 1)) (h : n + 1 ≤ 32) :
    -2 ^ n ≤ (v.signExtend 32).toInt ∧ (v.signExtend 32).toInt ≤ 2 ^ n - 1 := by
  rw [BitVec.toInt_signExtend_of_le h]
  exact ⟨v.le_toInt, v.toInt_le⟩

theorem toInt_immI (w : Word) : (immI w).toInt = Int.bmod (fieldOf w 20 12) 4096 := by
  rw [immI, toInt_signExtend_eq_bmod _ (by omega), toNat_extractLsb'_eq_fieldOf]
  rfl

theorem toInt_immS (w : Word) : (immS w).toInt = Int.bmod (32 * fieldOf w 25 7 + fieldOf w 7 5) 4096 := by
  rw [immS, toInt_signExtend_eq_bmod _ (by omega), toNat_append_eq_add]
  simp only [toNat_extractLsb'_eq_fieldOf]
  congr 1
  omega

theorem toInt_immB (w : Word) : (immB w).toInt =
    Int.bmod (4096 * fieldOf w 31 1 + 2048 * fieldOf w 7 1 + 32 * fieldOf w 25 6 + 2 * fieldOf w 8 4) 8192 := by
  rw [immB, toInt_signExtend_eq_bmod _ (by omega)]
  simp only [toNat_append_eq_add, toNat_extractLsb'_eq_fieldOf, show (0 : BitVec 1).toNat = 0 from rfl]
  congr 1
  omega

theorem toInt_immJ (w : Word) : (immJ w).toInt =
    Int.bmod (1048576 * fieldOf w 31 1 + 4096 * fieldOf w 12 8 + 2048 * fieldOf w 20 1 + 2 * fieldOf w 21 10) 2097152 := by
  rw [immJ, toInt_signExtend_eq_bmod _ (by omega)]
  simp only [toNat_append_eq_add, toNat_extractLsb'_eq_fieldOf, show (0 : BitVec 1).toNat = 0 from rfl]
  congr 1
  omega

theorem toNat_immU (w : Word) : (immU w).toNat = 4096 * fieldOf w 12 20 := by
  rw [immU, toNat_placeAt _ _ (by omega), toNat_extractLsb'_eq_fieldOf]
  exact Nat.mul_comm ..

/-! ## The ranges of the immediates (R58 to R62, R74) -/

theorem immOk12_immI (w : Word) : immOk12 (immI w) := toInt_signExtend_bounds (n := 11) _ (by omega)

theorem immOk12_immS (w : Word) : immOk12 (immS w) := toInt_signExtend_bounds (n := 11) _ (by omega)

theorem immOkB_immB (w : Word) : immOkB (immB w) := by
  have hb : -4096 ≤ (immB w).toInt ∧ (immB w).toInt ≤ 4095 := toInt_signExtend_bounds (n := 12) _ (by omega)
  have hmod := @Int.bmod_emod (4096 * fieldOf w 31 1 + 2048 * fieldOf w 7 1 + 32 * fieldOf w 25 6 + 2 * fieldOf w 8 4) 8192
  rw [← toInt_immB] at hmod
  exact ⟨hb.1, by omega, by omega⟩

theorem immOkJ_immJ (w : Word) : immOkJ (immJ w) := by
  have hb : -1048576 ≤ (immJ w).toInt ∧ (immJ w).toInt ≤ 1048575 := toInt_signExtend_bounds (n := 20) _ (by omega)
  have hmod := @Int.bmod_emod
    (1048576 * fieldOf w 31 1 + 4096 * fieldOf w 12 8 + 2048 * fieldOf w 20 1 + 2 * fieldOf w 21 10) 2097152
  rw [← toInt_immJ] at hmod
  exact ⟨hb.1, by omega, by omega⟩

theorem immOkU_immU (w : Word) : immOkU (immU w) := by
  rw [immOkU, toNat_immU, Nat.mul_mod_right]

/-! ## A word is put together from its fields, format by format (R52 to R57) -/

theorem regBits_rdOf (w : Word) : regBits (rdOf w) = w.extractLsb' 7 5 := rfl

theorem regBits_rs1Of (w : Word) : regBits (rs1Of w) = w.extractLsb' 15 5 := rfl

theorem regBits_rs2Of (w : Word) : regBits (rs2Of w) = shamtOf w := rfl

section
variable {w : Word} {f7 : BitVec 7} {f3 : BitVec 3} {op : BitVec 7}

theorem encodeR_fieldsOf (hop : opcodeOf w = op) (h3 : funct3Of w = f3) (h7 : funct7Of w = f7) :
    encodeR f7 (shamtOf w) (rs1Of w) f3 (rdOf w) op = w := by
  subst hop h3 h7
  apply BitVec.eq_of_getLsbD_eq
  intro i hi
  simp only [encodeR, funct7Of, shamtOf, regBits_rs1Of, funct3Of, regBits_rdOf, opcodeOf, BitVec.getLsbD_or, getLsbD_placeAt,
    BitVec.getLsbD_extractLsb']
  interval_cases i <;> simp

theorem encodeI_fieldsOf (hop : opcodeOf w = op) (h3 : funct3Of w = f3) :
    encodeI (immI w) (rs1Of w) f3 (rdOf w) op = w := by
  subst hop h3
  apply BitVec.eq_of_getLsbD_eq
  intro i hi
  simp only [encodeI, immI, regBits_rs1Of, funct3Of, regBits_rdOf, opcodeOf, BitVec.getLsbD_or, getLsbD_placeAt,
    BitVec.getLsbD_extractLsb', BitVec.getLsbD_signExtend]
  interval_cases i <;> simp

theorem encodeS_fieldsOf (hop : opcodeOf w = op) (h3 : funct3Of w = f3) :
    encodeS (immS w) (rs2Of w) (rs1Of w) f3 op = w := by
  subst hop h3
  apply BitVec.eq_of_getLsbD_eq
  intro i hi
  simp only [encodeS, immS, regBits_rs2Of, shamtOf, regBits_rs1Of, funct3Of, opcodeOf, BitVec.getLsbD_or, getLsbD_placeAt,
    BitVec.getLsbD_extractLsb', BitVec.getLsbD_signExtend, BitVec.getLsbD_append]
  interval_cases i <;> simp

theorem encodeB_fieldsOf (hop : opcodeOf w = op) (h3 : funct3Of w = f3) :
    encodeB (immB w) (rs2Of w) (rs1Of w) f3 op = w := by
  subst hop h3
  apply BitVec.eq_of_getLsbD_eq
  intro i hi
  simp only [encodeB, immB, regBits_rs2Of, shamtOf, regBits_rs1Of, funct3Of, opcodeOf, BitVec.getLsbD_or, getLsbD_placeAt,
    BitVec.getLsbD_extractLsb', BitVec.getLsbD_signExtend, BitVec.getLsbD_append]
  interval_cases i <;> simp

theorem encodeU_fieldsOf (hop : opcodeOf w = op) : encodeU (immU w) (rdOf w) op = w := by
  subst hop
  apply BitVec.eq_of_getLsbD_eq
  intro i hi
  simp only [encodeU, immU, regBits_rdOf, opcodeOf, BitVec.getLsbD_or, getLsbD_placeAt, BitVec.getLsbD_extractLsb']
  interval_cases i <;> simp

theorem encodeJ_fieldsOf (hop : opcodeOf w = op) : encodeJ (immJ w) (rdOf w) op = w := by
  subst hop
  apply BitVec.eq_of_getLsbD_eq
  intro i hi
  simp only [encodeJ, immJ, regBits_rdOf, opcodeOf, BitVec.getLsbD_or, getLsbD_placeAt, BitVec.getLsbD_extractLsb',
    BitVec.getLsbD_signExtend, BitVec.getLsbD_append]
  interval_cases i <;> simp

theorem encodeRaw_fieldsOf {bits : BitVec 25} (hop : opcodeOf w = op) (hbits : upperBitsOf w = bits) :
    encodeRaw bits op = w := by
  subst hop hbits
  exact encodeRaw_upperBitsOf_opcodeOf w

/-! ## The first level of the decoder: one equation per opcode (R65) -/

theorem decode_registerAlu (h : opcodeOf w = 0x33#7) : decode w = decodeRegisterAlu w := by simp only [decode, h]

theorem decode_immediateAlu (h : opcodeOf w = 0x13#7) : decode w = decodeImmediateAlu w := by simp only [decode, h]

theorem decode_load (h : opcodeOf w = 0x03#7) : decode w = decodeLoad w := by simp only [decode, h]

theorem decode_store (h : opcodeOf w = 0x23#7) : decode w = decodeStore w := by simp only [decode, h]

theorem decode_system (h : opcodeOf w = 0x73#7) : decode w = .ok (decodeSystem w) := by simp only [decode, h]

theorem decode_branch (h : opcodeOf w = 0x63#7) : decode w = decodeBranch w := by simp only [decode, h]

theorem decode_jalr (h : opcodeOf w = 0x67#7) : decode w = decodeJalr w := by simp only [decode, h]

theorem decode_jal (h : opcodeOf w = 0x6F#7) : decode w = .ok (.jal (rdOf w) (immJ w)) := by simp only [decode, h]

theorem decode_lui (h : opcodeOf w = 0x37#7) : decode w = .ok (.lui (rdOf w) (immU w)) := by simp only [decode, h]

theorem decode_auipc (h : opcodeOf w = 0x17#7) : decode w = .ok (.auipc (rdOf w) (immU w)) := by simp only [decode, h]

theorem decode_fence (h : opcodeOf w = 0x0F#7) : decode w = .ok (.fence (upperBitsOf w)) := by simp only [decode, h]

end

/-! ## What decodes is well-formed and encodes to its word -/

/-- `i` is a well-formed instruction whose word is `w`. -/
def IsWordOf (w : Word) (i : Instr) : Prop := i.wf = true ∧ encode i = w

section
variable {w : Word} {i : Instr}

theorem isWordOf_decodeRegisterAlu (hop : opcodeOf w = 0x33#7) (h : decodeRegisterAlu w = .ok i) : IsWordOf w i := by
  unfold decodeRegisterAlu at h
  split at h <;> cases h
  all_goals exact ⟨rfl, encodeR_fieldsOf hop ‹_› ‹_›⟩

theorem isWordOf_decodeShiftImmediate (hop : opcodeOf w = 0x13#7) (h : decodeShiftImmediate w = .ok i) : IsWordOf w i := by
  unfold decodeShiftImmediate at h
  split at h <;> cases h
  all_goals exact ⟨rfl, encodeR_fieldsOf hop ‹_› ‹_›⟩

theorem isWordOf_decodeImmediateAlu (hop : opcodeOf w = 0x13#7) (h : decodeImmediateAlu w = .ok i) : IsWordOf w i := by
  unfold decodeImmediateAlu at h
  split at h
  case h_7 => exact isWordOf_decodeShiftImmediate hop h
  all_goals
    cases h
    exact ⟨decide_eq_true (immOk12_immI w), encodeI_fieldsOf hop ‹_›⟩

theorem isWordOf_decodeLoad (hop : opcodeOf w = 0x03#7) (h : decodeLoad w = .ok i) : IsWordOf w i := by
  unfold decodeLoad at h
  split at h <;> cases h
  all_goals exact ⟨decide_eq_true (immOk12_immI w), encodeI_fieldsOf hop ‹_›⟩

theorem isWordOf_decodeStore (hop : opcodeOf w = 0x23#7) (h : decodeStore w = .ok i) : IsWordOf w i := by
  unfold decodeStore at h
  split at h <;> cases h
  all_goals exact ⟨decide_eq_true (immOk12_immS w), encodeS_fieldsOf hop ‹_›⟩

theorem isWordOf_decodeBranch (hop : opcodeOf w = 0x63#7) (h : decodeBranch w = .ok i) : IsWordOf w i := by
  unfold decodeBranch at h
  split at h <;> cases h
  all_goals exact ⟨decide_eq_true (immOkB_immB w), encodeB_fieldsOf hop ‹_›⟩

theorem isWordOf_decodeJalr (hop : opcodeOf w = 0x67#7) (h : decodeJalr w = .ok i) : IsWordOf w i := by
  unfold decodeJalr at h
  split at h <;> cases h
  exact ⟨decide_eq_true (immOk12_immI w), encodeI_fieldsOf hop ‹_›⟩

theorem isWordOf_decodeSystem (hop : opcodeOf w = 0x73#7) : IsWordOf w (decodeSystem w) := by
  unfold decodeSystem
  split
  case isTrue h0 => exact ⟨rfl, encodeRaw_fieldsOf hop h0⟩
  case isFalse h0 =>
    split
    case isTrue h1 => exact ⟨rfl, encodeRaw_fieldsOf hop h1⟩
    case isFalse h1 => exact ⟨decide_eq_true ⟨h0, h1⟩, encodeRaw_fieldsOf hop rfl⟩

/-- Every word that decodes is the word of its instruction. -/
theorem isWordOf_of_decode (h : decode w = .ok i) : IsWordOf w i := by
  unfold decode at h
  split at h
  case h_1 hop => exact isWordOf_decodeRegisterAlu hop h
  case h_2 hop => exact isWordOf_decodeImmediateAlu hop h
  case h_3 hop => exact isWordOf_decodeLoad hop h
  case h_4 hop => exact isWordOf_decodeStore hop h
  case h_5 hop => cases h; exact isWordOf_decodeSystem hop
  case h_6 hop => exact isWordOf_decodeBranch hop h
  case h_7 hop => exact isWordOf_decodeJalr hop h
  case h_8 hop => cases h; exact ⟨decide_eq_true (immOkJ_immJ w), encodeJ_fieldsOf hop⟩
  case h_9 hop => cases h; exact ⟨decide_eq_true (immOkU_immU w), encodeU_fieldsOf hop⟩
  case h_10 hop => cases h; exact ⟨decide_eq_true (immOkU_immU w), encodeU_fieldsOf hop⟩
  case h_11 hop => cases h; exact ⟨rfl, encodeRaw_fieldsOf hop rfl⟩
  case h_12 => cases h

end

/-! ## The instruction of a row (R64) -/

/-- The instruction of an operation with the operands R64 takes from the fields of `w`. -/
def Op.instrOf (w : Word) : Op → Instr
  | .add => .add (rdOf w) (rs1Of w) (rs2Of w)
  | .sub => .sub (rdOf w) (rs1Of w) (rs2Of w)
  | .sll => .sll (rdOf w) (rs1Of w) (rs2Of w)
  | .slt => .slt (rdOf w) (rs1Of w) (rs2Of w)
  | .sltu => .sltu (rdOf w) (rs1Of w) (rs2Of w)
  | .xor => .xor (rdOf w) (rs1Of w) (rs2Of w)
  | .srl => .srl (rdOf w) (rs1Of w) (rs2Of w)
  | .sra => .sra (rdOf w) (rs1Of w) (rs2Of w)
  | .or => .or (rdOf w) (rs1Of w) (rs2Of w)
  | .and => .and (rdOf w) (rs1Of w) (rs2Of w)
  | .addi => .addi (rdOf w) (rs1Of w) (immI w)
  | .slti => .slti (rdOf w) (rs1Of w) (immI w)
  | .sltiu => .sltiu (rdOf w) (rs1Of w) (immI w)
  | .xori => .xori (rdOf w) (rs1Of w) (immI w)
  | .ori => .ori (rdOf w) (rs1Of w) (immI w)
  | .andi => .andi (rdOf w) (rs1Of w) (immI w)
  | .slli => .slli (rdOf w) (rs1Of w) (shamtOf w)
  | .srli => .srli (rdOf w) (rs1Of w) (shamtOf w)
  | .srai => .srai (rdOf w) (rs1Of w) (shamtOf w)
  | .lb => .lb (rdOf w) (rs1Of w) (immI w)
  | .lh => .lh (rdOf w) (rs1Of w) (immI w)
  | .lw => .lw (rdOf w) (rs1Of w) (immI w)
  | .lbu => .lbu (rdOf w) (rs1Of w) (immI w)
  | .lhu => .lhu (rdOf w) (rs1Of w) (immI w)
  | .sb => .sb (rs1Of w) (rs2Of w) (immS w)
  | .sh => .sh (rs1Of w) (rs2Of w) (immS w)
  | .sw => .sw (rs1Of w) (rs2Of w) (immS w)
  | .ecall => .ecall
  | .jal => .jal (rdOf w) (immJ w)
  | .jalr => .jalr (rdOf w) (rs1Of w) (immI w)
  | .beq => .beq (rs1Of w) (rs2Of w) (immB w)
  | .bne => .bne (rs1Of w) (rs2Of w) (immB w)
  | .blt => .blt (rs1Of w) (rs2Of w) (immB w)
  | .bge => .bge (rs1Of w) (rs2Of w) (immB w)
  | .bltu => .bltu (rs1Of w) (rs2Of w) (immB w)
  | .bgeu => .bgeu (rs1Of w) (rs2Of w) (immB w)
  | .lui => .lui (rdOf w) (immU w)
  | .auipc => .auipc (rdOf w) (immU w)
  | .fence => .fence (upperBitsOf w)
  | .ebreak => .ebreak
  | .systemOther => .systemOther (upperBitsOf w)

@[simp] theorem Op.op_instrOf (w : Word) (o : Op) : (o.instrOf w).op = o := by cases o <;> rfl

@[simp] theorem Op.op_row (o : Op) : o.row.op = o := by cases o <;> rfl

/-- Its operands are the fields R64 names. -/
theorem Op.operandsOf_instrOf (w : Word) (o : Op) : operandsOf w (o.instrOf w) := by
  cases o with
  | add | sub | sll | slt | sltu | xor | srl | sra | or | and => exact ⟨rdOf_val w, rs1Of_val w, rs2Of_val w⟩
  | addi | slti | sltiu | xori | ori | andi | lb | lh | lw | lbu | lhu | jalr => exact ⟨rdOf_val w, rs1Of_val w, rfl⟩
  | slli | srli | srai => exact ⟨rdOf_val w, rs1Of_val w, toNat_shamtOf w⟩
  | sb | sh | sw | beq | bne | blt | bge | bltu | bgeu => exact ⟨rs1Of_val w, rs2Of_val w, rfl⟩
  | jal | lui | auipc => exact ⟨rdOf_val w, rfl⟩
  | ecall | ebreak => trivial
  | fence | systemOther => exact toNat_upperBitsOf w

/-- An instruction is read back from its own word. -/
theorem instrOf_encode {i : Instr} (h : i.wf = true) : i.op.instrOf (encode i) = i := by
  cases i with
  | add d r1 r2 | sub d r1 r2 | sll d r1 r2 | slt d r1 r2 | sltu d r1 r2 | xor d r1 r2 | srl d r1 r2 | sra d r1 r2
  | or d r1 r2 | and d r1 r2 | slli d r1 r2 | srli d r1 r2 | srai d r1 r2 => simp [Instr.op, Op.instrOf, encode]
  | addi d r1 imm | slti d r1 imm | sltiu d r1 imm | xori d r1 imm | ori d r1 imm | andi d r1 imm | lb d r1 imm
  | lh d r1 imm | lw d r1 imm | lbu d r1 imm | lhu d r1 imm | jalr d r1 imm =>
    simp [Instr.op, Op.instrOf, encode, immI_encodeI (of_decide_eq_true h)]
  | sb r1 r2 imm | sh r1 r2 imm | sw r1 r2 imm =>
    simp [Instr.op, Op.instrOf, encode, immS_encodeS (of_decide_eq_true h)]
  | beq r1 r2 imm | bne r1 r2 imm | blt r1 r2 imm | bge r1 r2 imm | bltu r1 r2 imm | bgeu r1 r2 imm =>
    simp [Instr.op, Op.instrOf, encode, immB_encodeB (of_decide_eq_true h)]
  | jal d imm => simp [Instr.op, Op.instrOf, encode, immJ_encodeJ (of_decide_eq_true h)]
  | lui d imm | auipc d imm => simp [Instr.op, Op.instrOf, encode, immU_encodeU (of_decide_eq_true h)]
  | ecall | ebreak => rfl
  | fence bits | systemOther bits => simp [Instr.op, Op.instrOf, encode]

/-! ## What a row's mask and match say of a word's fields (R64 to R70) -/

section
variable {w : Word} {r : TableRow}

/-- Where a mask keeps a run of bits, a covered word has the bits of the match there. -/
theorem extractLsb'_eq_of_and_eq {m p : Word} {lo n : Nat} (h : w &&& m = p) (hm : m.extractLsb' lo n = BitVec.allOnes n) :
    w.extractLsb' lo n = p.extractLsb' lo n := by
  rw [← h, BitVec.extractLsb'_and, hm, BitVec.and_allOnes]

theorem opcodeOf_of_covers (h : r.covers w = true) (hm : opcodeOf r.mask = BitVec.allOnes 7) :
    opcodeOf w = opcodeOf r.pattern :=
  extractLsb'_eq_of_and_eq (beq_iff_eq.1 h) hm

theorem funct3Of_of_covers (h : r.covers w = true) (hm : funct3Of r.mask = BitVec.allOnes 3) :
    funct3Of w = funct3Of r.pattern :=
  extractLsb'_eq_of_and_eq (beq_iff_eq.1 h) hm

theorem funct7Of_of_covers (h : r.covers w = true) (hm : funct7Of r.mask = BitVec.allOnes 7) :
    funct7Of w = funct7Of r.pattern :=
  extractLsb'_eq_of_and_eq (beq_iff_eq.1 h) hm

theorem eq_pattern_of_covers (h : r.covers w = true) (hm : r.mask = BitVec.allOnes 32) : w = r.pattern := by
  have h' : w &&& r.mask = r.pattern := beq_iff_eq.1 h
  rwa [hm, BitVec.and_allOnes] at h'

end

/-- A word that a row covers decodes to the row's instruction. The row of the other system words covers ECALL and EBREAK
too, so it is left out. -/
theorem decode_of_covers {w : Word} {o : Op} (h : o.row.covers w = true) (ho : o ≠ .systemOther) :
    decode w = .ok (o.instrOf w) := by
  cases o with
  | add | sub | sll | slt | sltu | xor | srl | sra | or | and =>
    rw [decode_registerAlu (opcodeOf_of_covers h rfl)]
    simp only [decodeRegisterAlu, funct7Of_of_covers h rfl, funct3Of_of_covers h rfl]
    rfl
  | addi | slti | sltiu | xori | ori | andi =>
    rw [decode_immediateAlu (opcodeOf_of_covers h rfl)]
    simp only [decodeImmediateAlu, funct3Of_of_covers h rfl]
    rfl
  | slli | srli | srai =>
    rw [decode_immediateAlu (opcodeOf_of_covers h rfl)]
    simp only [decodeImmediateAlu, decodeShiftImmediate, funct7Of_of_covers h rfl, funct3Of_of_covers h rfl]
    rfl
  | lb | lh | lw | lbu | lhu =>
    rw [decode_load (opcodeOf_of_covers h rfl)]
    simp only [decodeLoad, funct3Of_of_covers h rfl]
    rfl
  | sb | sh | sw =>
    rw [decode_store (opcodeOf_of_covers h rfl)]
    simp only [decodeStore, funct3Of_of_covers h rfl]
    rfl
  | beq | bne | blt | bge | bltu | bgeu =>
    rw [decode_branch (opcodeOf_of_covers h rfl)]
    simp only [decodeBranch, funct3Of_of_covers h rfl]
    rfl
  | jalr =>
    rw [decode_jalr (opcodeOf_of_covers h rfl)]
    simp only [decodeJalr, funct3Of_of_covers h rfl]
    rfl
  | jal => exact decode_jal (opcodeOf_of_covers h rfl)
  | lui => exact decode_lui (opcodeOf_of_covers h rfl)
  | auipc => exact decode_auipc (opcodeOf_of_covers h rfl)
  | fence => exact decode_fence (opcodeOf_of_covers h rfl)
  | ecall | ebreak => rw [eq_pattern_of_covers h rfl]; rfl
  | systemOther => exact absurd rfl ho

end Sys2Proof

namespace Sys2Proof.Laws.RowMatch

/-- Every instruction's word is one of its row. -/
theorem covers_encode : ∀ i : Instr, i.op.row.covers (encode i) = true
  | .add rd rs1 rs2 => add rd rs1 rs2
  | .sub rd rs1 rs2 => sub rd rs1 rs2
  | .sll rd rs1 rs2 => sll rd rs1 rs2
  | .slt rd rs1 rs2 => slt rd rs1 rs2
  | .sltu rd rs1 rs2 => sltu rd rs1 rs2
  | .xor rd rs1 rs2 => xor rd rs1 rs2
  | .srl rd rs1 rs2 => srl rd rs1 rs2
  | .sra rd rs1 rs2 => sra rd rs1 rs2
  | .or rd rs1 rs2 => or rd rs1 rs2
  | .and rd rs1 rs2 => and rd rs1 rs2
  | .addi rd rs1 imm => addi rd rs1 imm
  | .slti rd rs1 imm => slti rd rs1 imm
  | .sltiu rd rs1 imm => sltiu rd rs1 imm
  | .xori rd rs1 imm => xori rd rs1 imm
  | .ori rd rs1 imm => ori rd rs1 imm
  | .andi rd rs1 imm => andi rd rs1 imm
  | .slli rd rs1 shamt => slli rd rs1 shamt
  | .srli rd rs1 shamt => srli rd rs1 shamt
  | .srai rd rs1 shamt => srai rd rs1 shamt
  | .lb rd rs1 imm => lb rd rs1 imm
  | .lh rd rs1 imm => lh rd rs1 imm
  | .lw rd rs1 imm => lw rd rs1 imm
  | .lbu rd rs1 imm => lbu rd rs1 imm
  | .lhu rd rs1 imm => lhu rd rs1 imm
  | .sb rs1 rs2 imm => sb rs1 rs2 imm
  | .sh rs1 rs2 imm => sh rs1 rs2 imm
  | .sw rs1 rs2 imm => sw rs1 rs2 imm
  | .ecall => ecall
  | .jal rd imm => jal rd imm
  | .jalr rd rs1 imm => jalr rd rs1 imm
  | .beq rs1 rs2 imm => beq rs1 rs2 imm
  | .bne rs1 rs2 imm => bne rs1 rs2 imm
  | .blt rs1 rs2 imm => blt rs1 rs2 imm
  | .bge rs1 rs2 imm => bge rs1 rs2 imm
  | .bltu rs1 rs2 imm => bltu rs1 rs2 imm
  | .bgeu rs1 rs2 imm => bgeu rs1 rs2 imm
  | .lui rd imm => lui rd imm
  | .auipc rd imm => auipc rd imm
  | .fence bits => fence bits
  | .ebreak => ebreak
  | .systemOther bits => systemOther bits

end Sys2Proof.Laws.RowMatch

namespace Sys2Proof

/-! ## Decoding an encoded instruction -/

/-- A system word that is neither ECALL nor EBREAK (R70). -/
theorem decode_encode_systemOther {bits : BitVec 25} (h : systemBitsOk bits) :
    decode (encode (.systemOther bits)) = .ok (.systemOther bits) := by
  obtain ⟨hecall, hebreak⟩ := h
  refine (decode_system (opcodeOf_encodeRaw bits 0x73)).trans ?_
  rw [decodeSystem, upperBitsOf_encodeRaw, if_neg hecall, if_neg hebreak]

/-- Every other instruction's word is in a row that decodes, and the operands read back. -/
theorem decode_encode_of_ne_systemOther {i : Instr} (h : i.wf = true) (ho : i.op ≠ .systemOther) :
    decode (encode i) = .ok i := by
  rw [decode_of_covers (Laws.RowMatch.covers_encode i) ho, instrOf_encode h]

/-! ## Decoding and the opcode table (R64) -/

theorem op_mem_admittedOps_iff (i : Instr) : i.op ∈ admittedOps ↔ i.admitted = true := by
  have h : decide (i.op ∈ admittedOps) = i.admitted := by cases i <;> rfl
  rw [← h, decide_eq_true_iff]

section
variable {w : Word} {i : Instr} {o : Op}

theorem decodeAdmitted_eq_some_iff : decodeAdmitted w = some i ↔ decode w = .ok i ∧ i.admitted = true := by
  unfold decodeAdmitted
  cases decode w with
  | error e => simp
  | ok j =>
    simp only [Option.ite_none_right_eq_some, Option.some.injEq, Except.ok.injEq]
    constructor
    · rintro ⟨hj, rfl⟩; exact ⟨rfl, hj⟩
    · rintro ⟨rfl, hj⟩; exact ⟨hj, rfl⟩

/-- A word that decodes is in the row of its instruction. -/
theorem covers_of_decode (h : decode w = .ok i) : i.op.row.covers w = true := by
  obtain ⟨-, henc⟩ := isWordOf_of_decode h
  exact henc ▸ Laws.RowMatch.covers_encode i

/-- A word decodes to the instruction its row gives it. -/
theorem instrOf_of_decode (h : decode w = .ok i) : i.op.instrOf w = i := by
  obtain ⟨hwf, henc⟩ := isWordOf_of_decode h
  exact henc ▸ instrOf_encode hwf

/-- A word that an admitted row covers decodes to the row's instruction, which is admitted. -/
theorem decodeAdmitted_of_covers (ho : o ∈ admittedOps) (h : o.row.covers w = true) :
    decodeAdmitted w = some (o.instrOf w) := by
  have hne : o ≠ .systemOther := by rintro rfl; revert ho; decide
  exact decodeAdmitted_eq_some_iff.2
    ⟨decode_of_covers h hne, (op_mem_admittedOps_iff _).1 (by rwa [Op.op_instrOf])⟩

/-- An admitted row covers a word exactly when it is the row of the instruction the word decodes to. -/
theorem covers_iff_eq_op (h : decodeAdmitted w = some i) (ho : o ∈ admittedOps) : o.row.covers w = true ↔ o = i.op := by
  constructor
  · intro hcov
    have hi : i = o.instrOf w := Option.some.inj (h.symm.trans (decodeAdmitted_of_covers ho hcov))
    rw [hi, Op.op_instrOf]
  · rintro rfl
    exact covers_of_decode (decodeAdmitted_eq_some_iff.1 h).1

end

/-- The admitted operations are listed without repetition. -/
theorem filter_admittedOps_eq : ∀ o ∈ admittedOps, admittedOps.filter (fun x => decide (x = o)) = [o] := by decide

/-- The rows that cover a word are the rows of the operations whose row covers it. -/
theorem filter_admittedRows (w : Word) :
    admittedRows.filter (fun r => r.covers w) = (admittedOps.filter (fun o => o.row.covers w)).map Op.row :=
  List.filter_map

/-- Only the row of the instruction it decodes to covers a word. -/
theorem filter_covers_of_decodeAdmitted {w : Word} {i : Instr} (h : decodeAdmitted w = some i) :
    admittedRows.filter (fun r => r.covers w) = [i.op.row] := by
  have hi : i.op ∈ admittedOps := (op_mem_admittedOps_iff i).2 (decodeAdmitted_eq_some_iff.1 h).2
  have hcov : ∀ o ∈ admittedOps, o.row.covers w = decide (o = i.op) := fun o ho =>
    Bool.eq_iff_iff.2 ((covers_iff_eq_op h ho).trans (decide_eq_true_iff).symm)
  rw [filter_admittedRows, List.filter_congr hcov, filter_admittedOps_eq _ hi, List.map_singleton]

/-- No row covers a word that decodes to Illegal. -/
theorem filter_covers_of_illegal {w : Word} (h : decodeAdmitted w = none) :
    admittedRows.filter (fun r => r.covers w) = [] := by
  rw [filter_admittedRows, List.map_eq_nil_iff, List.filter_eq_nil_iff]
  intro o ho hcov
  rw [decodeAdmitted_of_covers ho hcov] at h
  cases h

end Sys2Proof

namespace Sys2Proof.Machine

/-! ## The obligations -/

/-- Settles O4: an instruction's word is in the instruction's row, and its operands read back from it. -/
theorem decodeOfEncodeIsTheInstruction : Obligations.DecodeOfEncodeIsTheInstruction := by
  intro i hwf
  cases i with
  | systemOther bits => exact decode_encode_systemOther (of_decide_eq_true hwf)
  | _ => exact decode_encode_of_ne_systemOther hwf (by simp [Instr.op])

/-- Settles O5, format by format: a word is put together again from the fields its instruction was read from. -/
theorem encodeOfDecodeIsTheWord : Obligations.EncodeOfDecodeIsTheWord :=
  fun _ _ => isWordOf_of_decode

/-- Settles O6: an admitted row covers a word exactly when the word decodes to the row's instruction. -/
theorem decoderFollowsTheOpcodeTable : Obligations.DecoderFollowsTheOpcodeTable := by
  intro w
  refine ⟨fun i h => ?_, filter_covers_of_illegal⟩
  obtain ⟨hd, hadm⟩ := decodeAdmitted_eq_some_iff.1 h
  exact ⟨hadm, filter_covers_of_decodeAdmitted h, instrOf_of_decode hd ▸ Op.operandsOf_instrOf w i.op⟩

/-- Settles O3: the value of each immediate from its fields, and its range from its width. -/
theorem immediatesHaveTheirFieldsValues : Obligations.ImmediatesHaveTheirFieldsValues :=
  ⟨fun w => ⟨toInt_immI w, immOk12_immI w, toInt_immS w, immOk12_immS w, toInt_immB w, immOkB_immB w,
    toNat_immU w, immOkU_immU w, toInt_immJ w, immOkJ_immJ w⟩, by decide⟩

/-- Settles O44: the fetched word decodes to its row's instruction, and the step executes what it decodes to. -/
theorem wordsExecuteWhateverPlacedThem : Obligations.WordsExecuteWhateverPlacedThem := by
  intro s r hrun halign hbounds hr hword
  obtain ⟨o, ho, rfl⟩ := List.mem_map.1 hr
  have hdec : decodeAdmitted (s.wordAt s.pc) = some (o.instrOf (s.wordAt s.pc)) :=
    decodeAdmitted_of_covers ho (beq_iff_eq.2 hword)
  have hfetched : decode s.fetchedWord = .ok (o.instrOf (s.wordAt s.pc)) := (decodeAdmitted_eq_some_iff.1 hdec).1
  refine ⟨_, hdec, by rw [Op.op_instrOf, Op.op_row], Op.operandsOf_instrOf _ o, ?_⟩
  simp only [step, hrun, if_true, fetchFault_of_inBounds halign hbounds, hfetched]

/-- Settles O1: the decoder run on the words written out. -/
theorem sampleWordsDecode : Obligations.SampleWordsDecode := by
  unfold Obligations.SampleWordsDecode
  decide

/-- Settles O2: a run of bits of a word is its field. -/
theorem fieldsLieAtFixedPositions : Obligations.FieldsLieAtFixedPositions := fun w =>
  ⟨toNat_extractLsb'_eq_fieldOf w 0 7, rdOf_val w, toNat_extractLsb'_eq_fieldOf w 12 3, rs1Of_val w, rs2Of_val w,
    toNat_extractLsb'_eq_fieldOf w 25 7⟩

end Sys2Proof.Machine

/-! Proofs of the statements about fetch, decode and execute (40_fetch_decode_execute.md): a step always answers, what an
instruction leaves alone, the loop of `run` as a chain of steps, what the commands keep, and the obligations from them. -/

namespace Sys2Proof.Machine

/-! ## A step answers a next state (R79, R123) -/

/-- The second byte of the ECALL word is zero. -/
theorem State.byteAt_add_one_of_ecall {s : State} {a : Word} (h : s.wordAt a = 0x00000073) : s.byteAt (a + 1) = 0 := by
  have hword : (s.wordAt a).toNat = 0x73 := by rw [h]; rfl
  rw [State.toNat_wordAt] at hword
  have h0 := (s.byteAt a).isLt
  exact BitVec.eq_of_toNat_eq (show _ = (0 : Nat) by omega)

/-- A scan started by an ECALL fetched in bounds ends: the word's second byte is a zero byte of the buffer. -/
theorem scanString_ne_endless_of_ecall {s : State} (hc : s.cfg.wf) (hf : fetchFault s.cfg s.pc = none)
    (hw : s.wordAt s.pc = 0x00000073) (v : Word) :
    scanString s.atExecute (s.atExecute.cfg.memSize + 1) v ≠ .endless := by
  obtain ⟨-, hsize, -⟩ := hc
  obtain ⟨-, hbounds⟩ := (fetchFault_eq_none ..).1 hf
  exact scanString_ends (s := s.atExecute) hsize ((inBounds_iff ..).1 hbounds 1 (by omega))
    (State.byteAt_add_one_of_ecall hw) v

/-- The decoded instruction answers a next state. -/
theorem exec_answers {s : State} {i : Instr} (hc : s.cfg.wf) (hf : fetchFault s.cfg s.pc = none)
    (hd : decode s.fetchedWord = .ok i) : ∃ u, exec i s.atExecute = .next u := by
  have h := exec_effect i s.atExecute
  generalize exec i s.atExecute = o at h ⊢
  cases h with
  | stop hi hscan =>
    subst hi
    exact absurd hscan (scanString_ne_endless_of_ecall hc hf ((decode_eq_ecall_iff _).1 hd) _)
  | result | transfer | store | print | halt | trap => exact ⟨_, rfl⟩

/-- A step answers a next state. -/
theorem step_answers {s : State} (hc : s.cfg.wf) : ∃ t, step s = .next t := by
  obtain ⟨-, e⟩ | ⟨-, c, -, e⟩ | ⟨-, -, -, e⟩ | ⟨-, hf, i, hd, e⟩ := step_cases s
  · exact ⟨_, e⟩
  · exact ⟨_, e⟩
  · exact ⟨_, e⟩
  · obtain ⟨u, hu⟩ := exec_answers hc hf hd
    exact ⟨u.forceX0, by rw [e, hu, endStep]⟩

/-! ## What a step leaves alone (R13, R25, R82) -/

/-- No instruction changes the parameters. -/
theorem cfg_of_effect {i : Instr} {s u : State} (h : Effect i s (.next u)) : u.cfg = s.cfg := by
  cases h with
  | result | transfer | store | print | halt | trap => rfl

/-- No step changes the parameters. -/
theorem cfg_of_step {s t : State} (h : step s = .next t) : t.cfg = s.cfg := by
  cases stepTo_of_step h with
  | idle | fetchTrap | illegal => rfl
  | execute i u _ _ _ hu =>
    have hcfg : u.cfg = s.atExecute.cfg := cfg_of_effect (effect_of_exec hu)
    exact hcfg

/-- The output before a step is the beginning of the output after it. -/
theorem out_isPrefix_of_step {s t : State} (h : step s = .next t) : s.out <+: t.out := by
  obtain e | ⟨str, e, -⟩ := outputOnlyGrows s t h
  · exact ⟨[], by rw [e, List.append_nil]⟩
  · exact ⟨[str], e.symm⟩

/-- A register other than the destination of a write reads as before. -/
theorem State.readReg_writeReg_of_ne (s : State) {r q : Reg} (v : Word) (h : q ≠ r) :
    (s.writeReg r v).readReg q = s.readReg q := by
  by_cases hq : q = 0
  · simp [hq]
  · rw [State.readReg_writeReg, if_neg hq, if_neg h]

/-- An instruction writes at most one register. -/
theorem readReg_of_effect {i : Instr} {s u : State} (h : Effect i s (.next u)) :
    ∃ rd : Reg, ∀ r : Reg, r ≠ rd → u.readReg r = s.readReg r := by
  cases h with
  | result rd v _ => exact ⟨rd, fun r hr => s.readReg_writeReg_of_ne v hr⟩
  | transfer rd v a _ => exact ⟨rd, fun r hr => s.readReg_writeReg_of_ne v hr⟩
  | store | print | halt | trap => exact ⟨0, fun r _ => rfl⟩

/-! ## Traps (R83, R140) -/

/-- An instruction executed in Running that leaves Trapped has raised, with its own address and word. -/
theorem raise_of_effect_trapped {i : Instr} {s u : State} (h : Effect i s (.next u)) (hs : s.run = .running)
    (hu : u.run = .trapped) : ∃ c, u = s.raise ⟨c, s.ipc, some (encode i)⟩ := by
  cases h with
  | trap c => exact ⟨c, rfl⟩
  | result | transfer | store | print => exact absurd (hs.symm.trans hu) (by decide)
  | halt => exact absurd hu (by simp)

/-- Forcing the cell of `x0` after a raise has no effect that a register shows (R140). -/
theorem trappedFrom_forceX0 {s t : State} {pc : Word} {r : TrapRecord} (h : trappedFrom s t pc r) :
    trappedFrom s t.forceX0 pc r := by
  obtain ⟨hregs, hrest⟩ := h
  exact ⟨fun q => (t.readReg_forceX0 q).trans (hregs q), hrest⟩

/-- A raise during Execute is precise for the state before the step. -/
theorem trappedFrom_raise_atExecute (s : State) (r : TrapRecord) : trappedFrom s (s.atExecute.raise r) (s.pc + 4) r :=
  trappedFrom_raise_of s.readReg_atExecute rfl rfl rfl r

/-- A raise at fetch is precise for the state before the step. -/
theorem trappedFrom_raise_enterStep (s : State) (r : TrapRecord) : trappedFrom s (s.enterStep.raise r) s.pc r :=
  trappedFrom_raise_of s.readReg_enterStep rfl rfl rfl r

/-! ## Run states (R78, R84, R85) -/

/-- The run states without steps. -/
theorem State.runnable_eq_false_iff (s : State) :
    s.runnable = false ↔ s.run = .unloaded ∨ s.run = .halted ∨ s.run = .trapped := by
  unfold State.runnable
  cases s.run <;> decide

/-- The ceiling leaves a run state without steps alone. -/
theorem State.ceiling_of_not_runnable {s : State} (h : s.runnable = false) : s.ceiling = s := by
  simp [State.ceiling, h]

/-- The run states `run` ends in when the loop met a state without steps. -/
theorem State.ceiling_run_of_not_runnable {s : State} (h : s.runnable = false) :
    s.ceiling.run = .unloaded ∨ s.ceiling.run = .halted ∨ s.ceiling.run = .trapped := by
  rw [State.ceiling_of_not_runnable h]
  exact s.runnable_eq_false_iff.1 h

/-- The ceiling leaves a state that could go on in LimitExceeded. -/
theorem State.ceiling_of_runnable {s : State} (h : s.runnable = true) :
    s.ceiling = { s with run := .limitExceeded } := by
  simp [State.ceiling, h]

theorem RunState.outcome_eq_limit_iff (r : RunState) :
    r.outcome = some .instructionLimitExceeded ↔ r = .limitExceeded := by
  cases r <;> decide

theorem RunState.outcome_eq_halted_iff (r : RunState) : r.outcome = some .halted ↔ r = .halted := by
  cases r <;> decide

theorem RunState.outcome_eq_trapped_iff (r : RunState) : r.outcome = some .trapped ↔ r = .trapped := by
  cases r <;> decide

/-- A step enters Running whatever the run state with steps was: from LimitExceeded it is the same step (R86). -/
theorem step_limitExceeded {s : State} (h : s.runnable = true) : step { s with run := .limitExceeded } = step s := by
  have hlimit : State.runnable { s with run := .limitExceeded } = true := rfl
  rw [step, step, if_pos h, if_pos hlimit]
  rfl

/-! ## The loop of `run` as a chain of steps (R84) -/

/-- `n` steps, each from a run state that has steps, lead from `s` to `t`. -/
inductive Steps : State → Nat → State → Prop where
  | done (s : State) : Steps s 0 s
  | more {s t u : State} {n : Nat} : s.runnable = true → step s = .next t → Steps t n u → Steps s (n + 1) u

/-- The loop's first step, when the loop answers a next state. -/
theorem runSteps_succ_eq_next {max : Nat} {s u : State} {n : Nat} (hr : s.runnable = true)
    (h : runSteps (max + 1) s = .next (u, n)) :
    ∃ t m, step s = .next t ∧ runSteps max t = .next (u, m) ∧ n = m + 1 := by
  simp only [runSteps, hr, if_true] at h
  cases hs : step s with
  | next t =>
    cases hm : runSteps max t with
    | next p =>
      simp only [hs, hm] at h
      cases h
      exact ⟨t, p.2, rfl, hm, rfl⟩
    | fault f => simp [hs, hm] at h
    | refused r => simp [hs, hm] at h
  | fault f => simp [hs] at h
  | refused r => simp [hs] at h

/-- The loop takes at most `max` steps, fewer only when it met a run state without steps. -/
theorem steps_of_runSteps {max : Nat} {s t : State} {n : Nat} (h : runSteps max s = .next (t, n)) :
    Steps s n t ∧ n ≤ max ∧ (n < max → t.runnable = false) := by
  induction max generalizing s n with
  | zero => cases h; exact ⟨.done _, Nat.le_refl 0, fun hlt => absurd hlt (Nat.lt_irrefl 0)⟩
  | succ max ih =>
    cases hr : s.runnable with
    | false =>
      rw [runSteps_of_not_runnable hr] at h
      cases h
      exact ⟨.done _, Nat.zero_le _, fun _ => hr⟩
    | true =>
      obtain ⟨v, m, hs, hm, rfl⟩ := runSteps_succ_eq_next hr h
      obtain ⟨hsteps, hle, hend⟩ := ih hm
      exact ⟨.more hr hs hsteps, by omega, fun hlt => hend (by omega)⟩

/-- The loop always answers. -/
theorem runSteps_answers (max : Nat) {s : State} (hc : s.cfg.wf) : ∃ t n, runSteps max s = .next (t, n) := by
  induction max generalizing s with
  | zero => exact ⟨s, 0, rfl⟩
  | succ max ih =>
    cases hr : s.runnable with
    | false => exact ⟨s, 0, runSteps_of_not_runnable hr _⟩
    | true =>
      obtain ⟨t, ht⟩ := step_answers hc
      obtain ⟨u, n, hu⟩ := ih ((cfg_of_step ht).symm ▸ hc)
      exact ⟨u, n + 1, by rw [runSteps_succ hr ht, hu]⟩

/-- A loop from LimitExceeded goes on as the loop from the state before the ceiling would have (R86). -/
theorem runSteps_ceiling {n : Nat} {s u : State} {k : Nat} (h : runSteps n s.ceiling = .next (u, k)) :
    ∃ v, runSteps n s = .next (v, k) ∧ v.ceiling = u.ceiling := by
  cases hr : s.runnable with
  | false => exact ⟨u, by rw [State.ceiling_of_not_runnable hr] at h; exact h, rfl⟩
  | true =>
    cases n with
    | zero => cases h; exact ⟨s, rfl, s.ceiling_ceiling.symm⟩
    | succ n =>
      rw [State.ceiling_of_runnable hr] at h
      obtain ⟨t, m, hs, hm, rfl⟩ := runSteps_succ_eq_next rfl h
      rw [step_limitExceeded hr] at hs
      exact ⟨u, by rw [runSteps_succ hr hs, hm], rfl⟩

section
variable {s t : State} {n : Nat}

/-- What every step keeps, a chain of steps keeps. -/
theorem Steps.keeps {P : State → Prop} (h : Steps s n t) (hP : ∀ s t, step s = .next t → P s → P t) (hs : P s) : P t := by
  induction h with
  | done s => exact hs
  | more _ hstep _ ih => exact ih (hP _ _ hstep hs)

/-- A chain of steps is a run of the core. -/
theorem Steps.core_run (h : Steps s n t) : Sys2Proof.core.run n s = .next t := by
  induction h with
  | done s => rfl
  | more _ hstep _ ih => exact (core_run_succ hstep _).trans ih

/-- Every state of a chain before its last has steps. -/
theorem Steps.runnable_before (h : Steps s n t) {k : Nat} (hk : k < n) :
    ∃ u, Sys2Proof.core.run k s = .next u ∧ State.runnable u = true := by
  induction h generalizing k with
  | done s => omega
  | @more s v u n hr hstep _ ih =>
    cases k with
    | zero => exact ⟨s, rfl, hr⟩
    | succ k =>
      obtain ⟨w, hw, hrun⟩ := ih (Nat.lt_of_succ_lt_succ hk)
      exact ⟨w, (core_run_succ hstep k).trans hw, hrun⟩

/-- The output before a chain of steps is the beginning of the output after it. -/
theorem Steps.out_isPrefix (h : Steps s n t) : s.out <+: t.out :=
  h.keeps (P := fun u => s.out <+: u.out) (fun _ _ hstep hu => hu.trans (out_isPrefix_of_step hstep)) ⟨[], s.out.append_nil⟩

/-- What a chain of steps appends is what the output holds beyond its old length (R85). -/
theorem Steps.out_eq_append (h : Steps s n t) : t.out = s.out ++ t.out.drop s.out.length := by
  obtain ⟨more, hmore⟩ := h.out_isPrefix
  rw [← hmore, List.drop_left]

theorem Steps.inv (h : Steps s n t) (hs : s.Inv) : t.Inv :=
  h.keeps (fun _ _ hstep hu => hu.of_stepTo (stepTo_of_step hstep)) hs

theorem Steps.cfg (h : Steps s n t) : t.cfg = s.cfg :=
  h.keeps (P := fun u => u.cfg = s.cfg) (fun _ _ hstep hu => (cfg_of_step hstep).trans hu) rfl

end

/-! ## What `run` reports (R84, R85) -/

/-- The report of a run from `s` that reached `t` after `n` steps. -/
def runReport (s t : State) (n : Nat) : RunResult :=
  ⟨t.ceiling, t.ceiling.run.outcome, n, t.out.drop s.out.length⟩

/-- `run` reports where its loop ends. -/
theorem runCommand_eq_next_iff {max : Nat} {s : State} {r : RunResult} :
    runCommand max s = .next r ↔ ∃ t n, runSteps max s = .next (t, n) ∧ runReport s t n = r := by
  unfold runCommand
  cases runSteps max s with
  | next p =>
    obtain ⟨t, n⟩ := p
    simp [runReport]
  | fault f => simp
  | refused q => simp

/-- A run in a run state without steps performs none and changes nothing (R78). -/
theorem runCommand_of_not_runnable {s : State} (h : s.runnable = false) (max : Nat) :
    ∃ r, runCommand max s = .next r ∧ r.state = s ∧ r.steps = 0 ∧ r.output = [] :=
  ⟨runReport s s 0, runCommand_eq_next_iff.2 ⟨s, 0, runSteps_of_not_runnable h max, rfl⟩,
    State.ceiling_of_not_runnable h, rfl, List.drop_length⟩

/-- What a growing list gains in two stretches is what it gains in the first and then in the second. -/
theorem drop_length_append {α : Type} {a b c : List α} (hab : a <+: b) (hbc : b <+: c) :
    c.drop a.length = b.drop a.length ++ c.drop b.length := by
  obtain ⟨x, rfl⟩ := hab
  obtain ⟨y, rfl⟩ := hbc
  simp

/-! ## What the commands keep (R77, R163, R164) -/

/-- An image that is not refused has no byte outside the buffer. -/
theorem image_within_of_not_refused {size : Nat} {image : Image} (h : imageRefusal size image = none) :
    ∀ c ∈ image, c.1 < size := by
  intro c hc
  by_contra hge
  have hany : image.any (fun c => decide (size ≤ c.1)) = true :=
    List.any_eq_true.2 ⟨c, hc, decide_eq_true (Nat.le_of_not_lt hge)⟩
  simp [imageRefusal, hany] at h

/-- Placing an image keeps the canonical form. -/
theorem placeImage_wf {m : Memory} (hm : Memory.wf m) (image : Image) : Memory.wf (placeImage m image) := by
  induction image generalizing m with
  | nil => exact hm
  | cons c rest ih => exact ih (Memory.write_wf hm c.1 c.2)

/-- Placing an image inside the buffer keeps every listed address inside it. -/
theorem placeImage_within {size : Nat} {m : Memory} {image : Image} (hm : Memory.within size m)
    (h : ∀ c ∈ image, c.1 < size) : Memory.within size (placeImage m image) := by
  induction image generalizing m with
  | nil => exact hm
  | cons c rest ih =>
    exact ih (Memory.write_within hm (h c List.mem_cons_self) c.2) fun d hd => h d (List.mem_cons_of_mem c hd)

/-- A loaded state meets the invariant: it is the state after reset but for `sp`, memory, `pc` and `run`. -/
theorem loadedState_inv {c : Config} (hc : c.wf) {image : Image} (h : ∀ b ∈ image, b.1 < c.memSize) (entry : Word) :
    (loadedState c image entry).Inv :=
  have hreset := State.resetWith_inv hc
  { configOk := hc
    memOk := placeImage_wf hreset.memOk image
    memWithin := placeImage_within hreset.memWithin h
    zeroCell := rfl
    faultIffTrapped := by simp [loadedState]
    diagLast := by simp [loadedState] }

/-- A successful `load` of an image leaves the loaded state. -/
theorem loadCommand_eq_ok {image : Image} {entry : Word} {s t : State} (h : loadCommand image entry s = .ok t) :
    imageRefusal s.cfg.memSize image = none ∧ t = loadedState s.cfg image entry := by
  unfold loadCommand at h
  split at h
  case h_1 => cases h
  case h_2 hnone => cases h; exact ⟨hnone, rfl⟩

/-- The ceiling of a `run` keeps the invariant: it acts in no Trapped state. -/
theorem State.Inv.ceiling {s : State} (h : s.Inv) : s.ceiling.Inv := by
  cases hr : s.runnable with
  | false => rw [State.ceiling_of_not_runnable hr]; exact h
  | true =>
    rw [State.ceiling_of_runnable hr]
    exact h.setRun (h.fault_eq_none (State.run_ne_trapped_of_runnable hr)) (by decide)

/-- A `run` command that answers leaves the ceiling of a state some steps reach. -/
theorem perform_run_eq_next {max : Nat} {s t : State} (h : perform (.run max) s = .next t) :
    ∃ n u, Steps s n u ∧ t = u.ceiling := by
  unfold perform at h
  cases hrun : runCommand max s with
  | next r =>
    obtain ⟨u, n, hu, rfl⟩ := runCommand_eq_next_iff.1 hrun
    simp only [hrun] at h
    cases h
    exact ⟨n, u, (steps_of_runSteps hu).1, rfl⟩
  | fault f => simp [hrun] at h
  | refused r => simp [hrun] at h

/-- Every command keeps the invariant and the parameters. -/
theorem perform_keeps {cmd : Command} {s t : State} (hs : s.Inv) (h : perform cmd s = .next t) :
    t.Inv ∧ t.cfg = s.cfg := by
  cases cmd with
  | reset => cases h; exact ⟨State.resetWith_inv hs.configOk, rfl⟩
  | load image entry =>
    simp only [perform] at h
    split at h <;> cases h
    case h_1 hload =>
      obtain ⟨hnone, rfl⟩ := loadCommand_eq_ok hload
      exact ⟨loadedState_inv hs.configOk (image_within_of_not_refused hnone) entry, rfl⟩
    case h_2 => exact ⟨hs, rfl⟩
  | step => exact ⟨hs.of_stepTo (stepTo_of_step h), cfg_of_step h⟩
  | run max =>
    obtain ⟨n, u, hsteps, rfl⟩ := perform_run_eq_next h
    exact ⟨(hsteps.inv hs).ceiling, hsteps.cfg⟩

/-! ## The obligations -/

/-- Settles O12: the one stop of the model needs a memory without a zero byte, and the ECALL being executed has some. -/
theorem everyStepAnswersANextState : Obligations.EveryStepAnswersANextState :=
  fun _ => step_answers

/-- Settles O15, by induction on the sequence of commands. -/
theorem reachableStatesMeetTheInvariant : Obligations.ReachableStatesMeetTheInvariant := by
  intro c s hc hreach
  induction hreach with
  | reset => exact ⟨State.resetWith_inv hc, rfl⟩
  | command cmd _ hperform ih =>
    obtain ⟨hinv, hcfg⟩ := ih
    obtain ⟨hinv', hcfg'⟩ := perform_keeps hinv hperform
    exact ⟨hinv', hcfg'.trans hcfg⟩

/-- Settles O16: every trap is a raise, at fetch, at decode or by the instruction, whose encoding is the fetched word. -/
theorem trapsArePrecise : Obligations.TrapsArePrecise := by
  intro s t hrun hstep htrap
  cases stepTo_of_step hstep with
  | idle hr => rw [hrun] at hr; cases hr
  | fetchTrap c _ _ => exact ⟨_, trappedFrom_raise_enterStep s _, rfl, .inl ⟨rfl, rfl⟩⟩
  | illegal e _ _ _ => exact ⟨_, trappedFrom_raise_atExecute s _, rfl, .inr ⟨rfl, rfl⟩⟩
  | execute i u _ _ hd hu =>
    obtain ⟨c, rfl⟩ := raise_of_effect_trapped (effect_of_exec hu) rfl htrap
    obtain ⟨-, hword⟩ := isWordOf_of_decode hd
    exact ⟨_, trappedFrom_forceX0 (trappedFrom_raise_atExecute s _), s.ipc_atExecute,
      .inr ⟨congrArg some hword, rfl⟩⟩

/-- Settles O40: the loop over both budgets is the two loops one after the other, and the ceiling between them is undone
by the second loop's first step. -/
theorem twoRunsAreAsOne : Obligations.TwoRunsAreAsOne := by
  refine ⟨fun s m n r q hr hq => ?_, fun s => step_limitExceeded⟩
  obtain ⟨t, k, ht, rfl⟩ := runCommand_eq_next_iff.1 hr
  obtain ⟨u, j, hu, rfl⟩ := runCommand_eq_next_iff.1 hq
  obtain ⟨v, hv, hvu⟩ := runSteps_ceiling hu
  have hout : v.out = u.out := by rw [← v.ceiling_out, hvu, u.ceiling_out]
  have hboth : runSteps (m + n) s = .next (v, k + j) := by simp only [runSteps_add, ht, hv]
  refine ⟨runReport s v (k + j), runCommand_eq_next_iff.2 ⟨v, k + j, hboth, rfl⟩, hvu, rfl, ?_, ?_⟩
  · calc v.out.drop s.out.length
      _ = t.out.drop s.out.length ++ v.out.drop t.out.length :=
        drop_length_append (steps_of_runSteps ht).1.out_isPrefix (steps_of_runSteps hv).1.out_isPrefix
      _ = t.out.drop s.out.length ++ u.out.drop t.out.length := by rw [hout]
  · exact congrArg (fun w : State => w.run.outcome) hvu

/-- Settles O11: in the three run states neither `step` nor the loop of `run` acts; `reset` and `load` read only the
parameters. -/
theorem commandsActByRunState : Obligations.CommandsActByRunState := by
  refine ⟨fun s hrun => ?_, fun s => rfl, fun s image entry => rfl⟩
  have hr : s.runnable = false := s.runnable_eq_false_iff.2 hrun
  exact ⟨by simp [step, hr], runCommand_of_not_runnable hr⟩

/-- Settles O17: entering and ending a step write only the cell of `x0`, and the instruction writes one register. -/
theorem atMostOneRegisterChangesPerStep : Obligations.AtMostOneRegisterChangesPerStep := by
  intro s t hstep
  cases stepTo_of_step hstep with
  | idle _ => exact ⟨0, fun r _ => rfl⟩
  | fetchTrap c _ _ => exact ⟨0, fun r _ => s.readReg_enterStep r⟩
  | illegal e _ _ _ => exact ⟨0, fun r _ => s.readReg_atExecute r⟩
  | execute i u _ _ _ hu =>
    obtain ⟨rd, hrd⟩ := readReg_of_effect (effect_of_exec hu)
    refine ⟨rd, fun r hr => ?_⟩
    rw [State.readReg_forceX0, hrd r hr, State.readReg_atExecute]

/-- Settles O39: the report of a run, read off the chain of steps its loop takes. -/
theorem runCountsItsSteps : Obligations.RunCountsItsSteps := by
  refine ⟨fun s max r hr => ?_, fun s hs => ?_, fun s max hc => ?_⟩
  · obtain ⟨t, n, ht, rfl⟩ := runCommand_eq_next_iff.1 hr
    obtain ⟨hsteps, hle, hend⟩ := steps_of_runSteps ht
    refine ⟨hle, fun hlt => ?_, ⟨t, hsteps.core_run, rfl⟩, fun k => hsteps.runnable_before, fun _ => ?_, ?_⟩
    · exact or_rotate.1 (State.ceiling_run_of_not_runnable (hend hlt))
    · exact ⟨RunState.outcome_eq_limit_iff _, RunState.outcome_eq_halted_iff _, RunState.outcome_eq_trapped_iff _⟩
    · exact hsteps.out_eq_append
  · have hceiling : s.ceiling = { s with run := .limitExceeded } := State.ceiling_of_runnable hs
    refine ⟨runReport s s 0, runCommand_eq_next_iff.2 ⟨s, 0, rfl, rfl⟩, rfl, ?_, hceiling⟩
    exact (RunState.outcome_eq_limit_iff _).2 (congrArg State.run hceiling)
  · obtain ⟨t, n, ht⟩ := runSteps_answers max hc
    exact ⟨runReport s t n, runCommand_eq_next_iff.2 ⟨t, n, ht, rfl⟩⟩

/-- Settles O7: the state the instruction executes in is the one the statement writes out. -/
theorem stepRunsTheDecodedInstruction : Obligations.StepRunsTheDecodedInstruction :=
  fun _ _ _ hrun halign hbounds hd hexec => step_eq_next_of_exec hrun halign hbounds hd hexec

end Sys2Proof.Machine

/-! Proofs of the statements about the register ALU instructions (41_alu_register.md): the operations of the words as
arithmetic, and the obligation from them. -/

namespace Sys2Proof.Machine

/-! ## The operations as arithmetic (R10, R63, R91 to R98) -/

/-- A difference modulo 2^32 (R92). -/
theorem sub_eq_ofInt (a b : Word) : a - b = BitVec.ofInt 32 (a.toInt - b.toInt) := by
  apply BitVec.eq_of_toInt_eq
  rw [BitVec.toInt_sub, BitVec.toInt_ofInt]

/-- A left shift is multiplication modulo 2^32 (R93). -/
theorem shiftLeft_eq_ofNat_mul (a : Word) (n : Nat) : a <<< n = BitVec.ofNat 32 (a.toNat * 2 ^ n) := by
  apply BitVec.eq_of_toNat_eq
  rw [BitVec.toNat_shiftLeft, BitVec.toNat_ofNat, Nat.shiftLeft_eq]

/-- A logical right shift is division rounding down (R97). -/
theorem ushiftRight_eq_ofNat_div (a : Word) (n : Nat) : a >>> n = BitVec.ofNat 32 (a.toNat / 2 ^ n) := by
  rw [← Nat.shiftRight_eq_div_pow, ← BitVec.toNat_ushiftRight, BitVec.ofNat_toNat, BitVec.setWidth_eq]

/-- A decided condition as a word is 1 or 0 (R10). -/
theorem boolWord_decide (p : Prop) [Decidable p] : boolWord (decide p) = if p then 1 else 0 := by
  simp only [boolWord, decide_eq_true_eq]

/-! ## Rows and results -/

/-- An instruction that answers a register write is in its row and writes that register only. -/
theorem inRow_writesOnly_of_writeReg {i : Instr} {s : State} {rd : Reg} {v w : Word}
    (h : exec i s = .next (s.writeReg rd w)) (e : w = v) :
    inRow i i.op.row.mask i.op.row.pattern ∧ writesOnly i s rd v :=
  ⟨inRow_of_rowMatch (Laws.RowMatch.covers_encode i), writesOnly_of_writeReg h e⟩

/-! ## The obligation -/

/-- Settles O23: each instruction answers the write of one word, and that word is the rule's arithmetic on the sources;
a register's shift amount is its value modulo 32. -/
theorem registerAluResults : Obligations.RegisterAluResults := by
  intro s rd rs1 rs2 a b
  have hamount : shiftAmount b = b.toNat % 32 := shiftAmount_eq_mod b
  refine ⟨?add, ?sub, ?sll, ?slt, ?sltu, ?xor, ?srl, ?sra, ?or, ?and⟩
  case add => exact inRow_writesOnly_of_writeReg rfl (BitVec.add_def a b)
  case sub => exact inRow_writesOnly_of_writeReg rfl (sub_eq_ofInt a b)
  case sll => exact inRow_writesOnly_of_writeReg rfl (hamount ▸ shiftLeft_eq_ofNat_mul a (shiftAmount b))
  case slt => exact inRow_writesOnly_of_writeReg rfl (boolWord_decide (a.toInt < b.toInt))
  case sltu => exact inRow_writesOnly_of_writeReg rfl (boolWord_decide (a.toNat < b.toNat))
  case xor => exact inRow_writesOnly_of_writeReg rfl rfl
  case srl => exact inRow_writesOnly_of_writeReg rfl (hamount ▸ ushiftRight_eq_ofNat_div a (shiftAmount b))
  case sra => exact inRow_writesOnly_of_writeReg rfl (hamount ▸ sshiftRight_eq_div a (shiftAmount b))
  case or => exact inRow_writesOnly_of_writeReg rfl rfl
  case and => exact inRow_writesOnly_of_writeReg rfl rfl

end Sys2Proof.Machine

/-! Proofs of the statements about the register-immediate ALU instructions (42_alu_immediate.md): the sum as arithmetic,
the Illegal words among the shifts, and the obligations from them. -/

namespace Sys2Proof.Machine

/-- A sum modulo 2^32 (R102). -/
theorem add_eq_ofInt (a b : Word) : a + b = BitVec.ofInt 32 (a.toInt + b.toInt) := by
  rw [BitVec.ofInt_add, BitVec.ofInt_toInt, BitVec.ofInt_toInt]

/-! ## The shifts among the words of opcode 0x13 (R67) -/

/-- A run of bits of a word is `v` exactly when the field there has `v`'s value. -/
theorem extractLsb'_eq_iff_fieldOf {w : Word} {lo n : Nat} {v : BitVec n} :
    w.extractLsb' lo n = v ↔ fieldOf w lo n = v.toNat := by
  rw [← BitVec.toNat_inj, toNat_extractLsb'_eq_fieldOf]

/-- A word the decoder rejects is Illegal (R64). -/
theorem decodeAdmitted_of_error {w : Word} {e : Reject} (h : decode w = .error e) : decodeAdmitted w = none := by
  simp only [decodeAdmitted, h]

section
variable {w : Word}

/-- With `w[31:25] = 0000000` a shift is SLLI or SRLI, with `0100000` and funct3 101 it is SRAI, and there is no other. -/
theorem decodeShiftImmediate_eq_error (hlogical : funct7Of w ≠ 0#7) (harith : funct7Of w = 0x20#7 → funct3Of w ≠ 5#3) :
    decodeShiftImmediate w = .error .functionField := by
  unfold decodeShiftImmediate
  split
  case h_1 h7 _ => exact absurd h7 hlogical
  case h_2 h7 _ => exact absurd h7 hlogical
  case h_3 h7 h3 => exact absurd h3 (harith h7)
  case h_4 => rfl

/-- The words of opcode 0x13 with funct3 001 or 101 are left to the shifts. -/
theorem decode_shiftImmediate (hop : opcodeOf w = 0x13#7) (h3 : funct3Of w = 1#3 ∨ funct3Of w = 5#3) :
    decode w = decodeShiftImmediate w := by
  rw [decode_immediateAlu hop]
  obtain h1 | h5 := h3
  · simp only [decodeImmediateAlu, h1]
    rfl
  · simp only [decodeImmediateAlu, h5]
    rfl

end

/-! ## The obligations -/

/-- Settles O24: each instruction answers the write of one word, and that word is the rule's arithmetic on the source and
the extended immediate; SLTIU reads both as unsigned. -/
theorem immediateAluResults : Obligations.ImmediateAluResults := by
  intro s rd rs1 imm a
  refine ⟨?addi, ?slti, ?sltiu, ?xori, ?ori, ?andi⟩
  case addi => exact inRow_writesOnly_of_writeReg rfl (add_eq_ofInt a imm)
  case slti => exact inRow_writesOnly_of_writeReg rfl (boolWord_decide (a.toInt < imm.toInt))
  case sltiu => exact inRow_writesOnly_of_writeReg rfl (boolWord_decide (a.toNat < imm.toNat))
  case xori => exact inRow_writesOnly_of_writeReg rfl rfl
  case ori => exact inRow_writesOnly_of_writeReg rfl rfl
  case andi => exact inRow_writesOnly_of_writeReg rfl rfl

/-- Settles O25: each shift answers the write of one word, the rule's product or quotient by the power of two; and no row
takes a word of the shifts' funct3 with another `w[31:25]`. -/
theorem shiftImmediateResults : Obligations.ShiftImmediateResults := by
  refine ⟨fun s rd rs1 shamt => ?shifts, fun w hop => ⟨fun h3 h7 => ?left, fun h3 hl ha => ?right⟩⟩
  case shifts =>
    intro a
    refine ⟨?slli, ?srli, ?srai⟩
    case slli => exact inRow_writesOnly_of_writeReg rfl (shiftLeft_eq_ofNat_mul a shamt.toNat)
    case srli => exact inRow_writesOnly_of_writeReg rfl (ushiftRight_eq_ofNat_div a shamt.toNat)
    case srai => exact inRow_writesOnly_of_writeReg rfl (sshiftRight_eq_div a shamt.toNat)
  case left =>
    have hfunct3 : funct3Of w = 1#3 := extractLsb'_eq_iff_fieldOf.2 h3
    have hnotArith : funct3Of w ≠ 5#3 := by rw [hfunct3]; decide
    have hshift := decode_shiftImmediate (extractLsb'_eq_iff_fieldOf.2 hop) (.inl hfunct3)
    exact decodeAdmitted_of_error (hshift.trans
      (decodeShiftImmediate_eq_error (mt extractLsb'_eq_iff_fieldOf.1 h7) fun _ => hnotArith))
  case right =>
    have hshift := decode_shiftImmediate (extractLsb'_eq_iff_fieldOf.2 hop) (.inr (extractLsb'_eq_iff_fieldOf.2 h3))
    exact decodeAdmitted_of_error (hshift.trans
      (decodeShiftImmediate_eq_error (mt extractLsb'_eq_iff_fieldOf.1 hl)
        fun h7 => absurd (extractLsb'_eq_iff_fieldOf.1 h7) ha))

end Sys2Proof.Machine

/-! Proofs of the statement about the loads (43_loads.md): the extended bytes as arithmetic, and the obligation from
them. -/

namespace Sys2Proof.Machine

/-! ## The loaded values as arithmetic (R34, R112 to R116) -/

/-- A word is the composition of its 4 bytes (R114). -/
theorem State.wordAt_eq_ofNat (s : State) (a : Word) :
    s.wordAt a = BitVec.ofNat 32 ((s.byteAt a).toNat + 2 ^ 8 * (s.byteAt (a + 1)).toNat +
      2 ^ 16 * (s.byteAt (a + 2)).toNat + 2 ^ 24 * (s.byteAt (a + 3)).toNat) := by
  rw [← State.toNat_wordAt, BitVec.ofNat_toNat, BitVec.setWidth_eq]

/-- A zero-extended halfword is the composition of its 2 bytes (R116). -/
theorem State.setWidth_halfAt (s : State) (a : Word) :
    (s.halfAt a).setWidth 32 = BitVec.ofNat 32 ((s.byteAt a).toNat + 2 ^ 8 * (s.byteAt (a + 1)).toNat) := by
  rw [← State.toNat_halfAt, BitVec.ofNat_toNat]

/-- A sign-extended halfword is the composition of its 2 bytes, taken as signed (R113). -/
theorem State.signExtend_halfAt (s : State) (a : Word) :
    (s.halfAt a).signExtend 32 =
      BitVec.ofInt 32 (Int.bmod ((s.byteAt a).toNat + 2 ^ 8 * (s.byteAt (a + 1)).toNat) (2 ^ 16)) := by
  have hvalue : (s.halfAt a).toInt = Int.bmod ((s.byteAt a).toNat + 2 ^ 8 * (s.byteAt (a + 1)).toNat) (2 ^ 16) := by
    rw [BitVec.toInt_eq_toNat_bmod, State.toNat_halfAt]
    push_cast
    rfl
  rw [BitVec.signExtend, hvalue]

/-! ## Rows and results -/

/-- An instruction that answers the shared load is in its row and loads in all its forms. -/
theorem inRow_loadsAs_of_loadInto {i : Instr} {s : State} {rd : Reg} {a : Word} {n : Nat} {v w : Word}
    (h : exec i s = loadInto i rd a n w s) (e : w = v) :
    inRow i i.op.row.mask i.op.row.pattern ∧ loadsAs i s rd a n v :=
  ⟨inRow_of_rowMatch (Laws.RowMatch.covers_encode i), loadsAs_of_loadInto h e⟩

/-! ## The obligation -/

/-- Settles O26: each load is the shared load of its size at base plus displacement, and the word it extends to is the
rule's arithmetic on the bytes there. -/
theorem loadResults : Obligations.LoadResults := by
  intro s rd rs1 imm a b0 b1 b2 b3
  refine ⟨?lb, ?lh, ?lw, ?lbu, ?lhu⟩
  case lb => exact inRow_loadsAs_of_loadInto rfl rfl
  case lh => exact inRow_loadsAs_of_loadInto rfl (s.signExtend_halfAt a)
  case lw => exact inRow_loadsAs_of_loadInto rfl (s.wordAt_eq_ofNat a)
  case lbu => exact inRow_loadsAs_of_loadInto rfl (BitVec.ofNat_toNat 32 b0).symm
  case lhu => exact inRow_loadsAs_of_loadInto rfl (s.setWidth_halfAt a)

end Sys2Proof.Machine

/-! Proof of the statement about the stores (44_stores.md): the three rules as the shared store, and the obligation from
them. -/

namespace Sys2Proof.Machine

/-- SB stores the low byte of its register at base plus displacement (R118). -/
theorem exec_sb (rs1 rs2 : Reg) (imm : Word) (s : State) :
    exec (.sb rs1 rs2 imm) s = storeFrom (.sb rs1 rs2 imm) (s.readReg rs1 + imm) (s.readReg rs2) 1 s := rfl

/-- SH stores the low halfword of its register at base plus displacement (R119). -/
theorem exec_sh (rs1 rs2 : Reg) (imm : Word) (s : State) :
    exec (.sh rs1 rs2 imm) s = storeFrom (.sh rs1 rs2 imm) (s.readReg rs1 + imm) (s.readReg rs2) 2 s := rfl

/-- An instruction that answers the shared store is in its row and stores in all its forms. -/
theorem inRow_storesAs_of_storeFrom {i : Instr} {s : State} {a v : Word} {n : Nat} (hn : n ≤ 2 ^ 32)
    (h : exec i s = storeFrom i a v n s) : inRow i i.op.row.mask i.op.row.pattern ∧ storesAs i s a n v :=
  ⟨inRow_of_rowMatch (Laws.RowMatch.covers_encode i), storesAs_of_storeFrom hn h⟩

/-- Settles O27: each store is the shared store of its size at base plus displacement. -/
theorem storeResults : Obligations.StoreResults := by
  intro s rs1 rs2 imm a v
  refine ⟨?sb, ?sh, ?sw⟩
  case sb => exact inRow_storesAs_of_storeFrom (by omega) (exec_sb rs1 rs2 imm s)
  case sh => exact inRow_storesAs_of_storeFrom (by omega) (exec_sh rs1 rs2 imm s)
  case sw => exact inRow_storesAs_of_storeFrom (by omega) (exec_sw rs1 rs2 imm s)

end Sys2Proof.Machine

/-! Proofs of the statements about ECALL (45_system.md): the service by the value of `a7`, the halt of a step, the
string scan as the bytes it reads, decimal text as digits, and the obligations from them. -/

namespace Sys2Proof.Machine

/-! ## The service ECALL runs (R121 to R126) -/

/-- ECALL by the value of `a7`. -/
theorem exec_ecall (s : State) : exec .ecall s =
    if s.readReg 17 = 1 then .next (s.output (decimal (s.readReg 10).toInt))
    else if s.readReg 17 = 4 then syscallPrintString (s.readReg 10) s
    else if s.readReg 17 = 10 then .next s.halt
    else if s.readReg 17 = 11 then .next (s.output (charOfCode (s.readReg 10)))
    else .next (s.raise ⟨.unsupportedSyscall (s.readReg 17), s.ipc, some (encode .ecall)⟩) := by
  simp only [← BitVec.toNat_inj]
  rfl

section
variable {s : State}

theorem exec_ecall_printInt (h : s.readReg 17 = 1) :
    exec .ecall s = .next (s.output (decimal (s.readReg 10).toInt)) := by simp [exec_ecall, h]

theorem exec_ecall_printString (h : s.readReg 17 = 4) :
    exec .ecall s = syscallPrintString (s.readReg 10) s := by simp [exec_ecall, h]

theorem exec_ecall_halt (h : s.readReg 17 = 10) : exec .ecall s = .next s.halt := by simp [exec_ecall, h]

theorem exec_ecall_printChar (h : s.readReg 17 = 11) :
    exec .ecall s = .next (s.output (charOfCode (s.readReg 10))) := by simp [exec_ecall, h]

theorem exec_ecall_unsupported (h1 : s.readReg 17 ≠ 1) (h4 : s.readReg 17 ≠ 4) (h10 : s.readReg 17 ≠ 10)
    (h11 : s.readReg 17 ≠ 11) :
    exec .ecall s = .next (s.raise ⟨.unsupportedSyscall (s.readReg 17), s.ipc, some (encode .ecall)⟩) := by
  rw [exec_ecall, if_neg h1, if_neg h4, if_neg h10, if_neg h11]

end

/-- Appending a fragment changes nothing else (R25). -/
theorem ecallPrints_of_output {s : State} {str : Text} (h : exec .ecall s = .next (s.output str)) : ecallPrints s str :=
  ⟨_, h, fun _ => rfl, fun _ => rfl, rfl, rfl, rfl, rfl, rfl⟩

/-- Codes 0 to 127 print their ASCII character (R125). -/
theorem charOfCode_of_lt {v : Word} (h : v.toNat < 128) : charOfCode v = [Char.ofNat v.toNat] := if_pos h

/-- Other codes print the open text (R125). -/
theorem charOfCode_of_le {v : Word} (h : 128 ≤ v.toNat) : charOfCode v = Config.charOut v := if_neg (Nat.not_lt.2 h)

/-! ## Halting (R124, R167) -/

/-- An instruction executed in Running that leaves Halted is ECALL with `a7 = 10`, and did no more than halt. -/
theorem halt_of_effect_halted {i : Instr} {s u : State} (h : Effect i s (.next u)) (hs : s.run = .running)
    (hu : u.run = .halted) : i = .ecall ∧ s.readReg 17 = 10 ∧ u = s.halt := by
  cases h with
  | halt hi ha7 => exact ⟨hi, ha7, rfl⟩
  | result | transfer | store | print => exact absurd (hs.symm.trans hu) (by decide)
  | trap c => exact absurd hu (by simp)

/-! ## The string syscall 4 scans (R123) -/

/-- The bytes from `v` on are those of the list. -/
def holdsBytes (s : State) (v : Word) (bytes : List Byte) : Prop :=
  ∀ k (h : k < bytes.length), s.mem.read (v + BitVec.ofNat 32 k).toNat = bytes[k]

/-- Of a list's bytes in memory, the first is at `v` and the others follow from `v + 1`. -/
theorem holdsBytes_cons {s : State} {v : Word} {b : Byte} {bytes : List Byte} (h : holdsBytes s v (b :: bytes)) :
    s.byteAt v = b ∧ holdsBytes s (v + 1) bytes := by
  refine ⟨by simpa [State.byteAt] using h 0 (Nat.succ_pos _), fun k hk => ?_⟩
  rw [add_ofNat_succ]
  exact h (k + 1) (Nat.succ_lt_succ hk)

/-- The text of the bytes in memory is the text of each, one after another. -/
theorem textOf_eq_flatMap {s : State} {v : Word} {bytes : List Byte} (h : holdsBytes s v bytes) :
    textOf s v bytes.length = bytes.flatMap charOfByte := by
  induction bytes generalizing v with
  | nil => rfl
  | cons b bytes ih =>
    obtain ⟨hb, hrest⟩ := holdsBytes_cons h
    rw [List.length_cons, textOf, hb, ih hrest, List.flatMap_cons]

/-- The text of a byte, by its value as a number. -/
theorem charOfByte_eq (b : Byte) :
    charOfByte b = if b.toNat < 128 then [Char.ofNat b.toNat] else Config.charOut (BitVec.ofNat 32 b.toNat) := by
  have hvalue : (b.setWidth 32).toNat = b.toNat := BitVec.toNat_setWidth_of_le (by omega)
  rw [charOfByte, charOfCode, hvalue, BitVec.ofNat_toNat]

/-- A run of nonzero bytes that ends is no longer than memory: one of 2^32 bytes or more would have come round to the
address it ends at. -/
theorem nonZeroRun_length_le {s : State} {v : Word} {n : Nat} (h : nonZeroRun s v n)
    (hstop : (v + BitVec.ofNat 32 n).toNat < s.cfg.memSize → s.mem.read (v + BitVec.ofNat 32 n).toNat = 0) :
    n ≤ s.cfg.memSize := by
  by_cases hn : n ≤ 2 ^ 32
  · exact run_length_le h hn
  · have hround : BitVec.ofNat 32 (n % 2 ^ 32) = BitVec.ofNat 32 n := BitVec.eq_of_toNat_eq (by simp)
    obtain ⟨hbound, hne⟩ := h (n % 2 ^ 32) (by omega)
    rw [hround] at hbound hne
    exact absurd (hstop hbound) hne

/-! ## Decimal text as digits (R122) -/

/-- The decimal digits of a number as it is spelled: most significant first, no leading zero, one 0 for zero. -/
def spelledDigits (n : Nat) : List Nat := if n = 0 then [0] else (Nat.digits 10 n).reverse

theorem spelledDigits_zero : spelledDigits 0 = [0] := if_pos rfl

theorem spelledDigits_of_ne_zero {n : Nat} (h : n ≠ 0) : spelledDigits n = (Nat.digits 10 n).reverse := if_neg h

/-- A number of one digit is spelled by it. -/
theorem spelledDigits_of_lt {n : Nat} (h : n < 10) : spelledDigits n = [n] := by
  by_cases h0 : n = 0
  · rw [h0, spelledDigits_zero]
  · rw [spelledDigits_of_ne_zero h0, Nat.digits_of_lt 10 n h0 h, List.reverse_singleton]

/-- A longer number is spelled by its tens, then its last digit. -/
theorem spelledDigits_of_le {n : Nat} (h : 10 ≤ n) : spelledDigits n = spelledDigits (n / 10) ++ [n % 10] := by
  rw [spelledDigits_of_ne_zero (by omega), spelledDigits_of_ne_zero (by omega),
    Nat.digits_def' (by omega) (by omega), List.reverse_cons]

/-- The model's digits are the spelled ones, when the fuel is at least their number. -/
theorem decimalDigits_eq_map {fuel n : Nat} (hfuel : 0 < fuel) (hn : n < 10 ^ fuel) :
    decimalDigits fuel n = (spelledDigits n).map digitChar := by
  induction fuel generalizing n with
  | zero => exact absurd hfuel (Nat.lt_irrefl 0)
  | succ fuel ih =>
    rw [decimalDigits]
    split
    case isTrue hlt => rw [spelledDigits_of_lt hlt, List.map_singleton]
    case isFalse hge =>
      have htens : n / 10 < 10 ^ fuel := Nat.div_lt_of_lt_mul (by rwa [Nat.pow_succ'] at hn)
      have hpos : 0 < fuel := Nat.pos_of_ne_zero fun e => by rw [e, Nat.pow_zero] at htens; omega
      rw [ih hpos htens, spelledDigits_of_le (n := n) (by omega), List.map_append, List.map_singleton]

theorem spelledDigits_ne_nil (n : Nat) : spelledDigits n ≠ [] := by
  by_cases h : n = 0
  · simp [h, spelledDigits_zero]
  · simpa [spelledDigits_of_ne_zero h, Nat.digits_eq_nil_iff_eq_zero] using h

theorem lt_ten_of_mem_spelledDigits {n d : Nat} (h : d ∈ spelledDigits n) : d < 10 := by
  by_cases h0 : n = 0
  · rw [h0, spelledDigits_zero, List.mem_singleton] at h
    omega
  · rw [spelledDigits_of_ne_zero h0, List.mem_reverse] at h
    exact Nat.digits_lt_base (by omega) h

/-- Only zero is spelled with a first digit 0. -/
theorem spelledDigits_eq_of_head_zero {n : Nat} (h : (spelledDigits n).head? = some 0) : spelledDigits n = [0] := by
  by_cases h0 : n = 0
  · rw [h0, spelledDigits_zero]
  · have hne : Nat.digits 10 n ≠ [] := Nat.digits_ne_nil_iff_ne_zero.2 h0
    rw [spelledDigits_of_ne_zero h0, List.head?_reverse, List.getLast?_eq_some_getLast hne, Option.some_inj] at h
    exact absurd h (Nat.getLast_digit_ne_zero 10 h0)

/-- The number its spelled digits stand for. -/
theorem foldl_spelledDigits (n : Nat) : (spelledDigits n).foldl (fun m d => 10 * m + d) 0 = n := by
  induction n using Nat.strongRecOn with
  | ind n ih =>
    by_cases hlt : n < 10
    · simp [spelledDigits_of_lt hlt]
    · rw [spelledDigits_of_le (by omega), List.foldl_append, ih (n / 10) (by omega), List.foldl_cons, List.foldl_nil]
      exact Nat.div_add_mod n 10

/-- The text of a word's signed value: its sign, then the spelled digits of its absolute value. -/
theorem decimal_toInt (v : Word) : decimal v.toInt =
    (if v.toInt < 0 then ['-'] else []) ++ (spelledDigits v.toInt.natAbs).map digitChar := by
  have hlow := BitVec.le_toInt v
  have hhigh := BitVec.toInt_lt (x := v)
  rw [decimal, decimalDigits_eq_map (by omega) (by omega)]
  split <;> rfl

/-! ## The obligations -/

/-- Settles O20: of the ways a step can end only executing an instruction halts: it is ECALL, which is one word. -/
theorem onlySyscallTenHalts : Obligations.OnlySyscallTenHalts := by
  intro s t hrun hstep hhalt
  cases stepTo_of_step hstep with
  | idle hr => rw [hrun] at hr; cases hr
  | fetchTrap c _ _ => cases hhalt
  | illegal e _ _ _ => cases hhalt
  | execute i u _ _ hd hu =>
    obtain ⟨rfl, ha7, rfl⟩ := halt_of_effect_halted (effect_of_exec hu) rfl hhalt
    exact ⟨(decode_eq_ecall_iff _).1 hd, (s.readReg_atExecute 17).symm.trans ha7, rfl, rfl⟩

/-- Settles O31: each value of `a7` selects its service, and a character is printed by its code. -/
theorem ecallServices : Obligations.EcallServices := by
  intro s n v
  refine ⟨by decide, fun h1 => ?printInt, fun h10 => ?halt, fun h11 hlt => ?ascii, fun h11 hle => ?openText,
    fun h1 h4 h10 h11 => ?unsupported⟩
  case printInt => exact ecallPrints_of_output (exec_ecall_printInt h1)
  case halt => exact exec_ecall_halt h10
  case ascii => exact ecallPrints_of_output (charOfCode_of_lt hlt ▸ exec_ecall_printChar h11)
  case openText => exact ecallPrints_of_output (charOfCode_of_le hle ▸ exec_ecall_printChar h11)
  case unsupported => exact trapsWith_of_raise (exec_ecall_unsupported h1 h4 h10 h11)

/-- Settles O32: the scan reads the run of nonzero bytes and ends at `stop`, within the addresses it is allowed. -/
theorem ecallPrintsAString : Obligations.EcallPrintsAString := by
  intro s bytes _ ha7 v hbytes stop
  have hexec : exec .ecall s = syscallPrintString v s := exec_ecall_printString ha7
  have hrun : nonZeroRun s v bytes.length := fun k hk => by
    obtain ⟨hne, hbound, hread⟩ := hbytes k hk
    exact ⟨hbound, hread ▸ hne⟩
  have hholds : holdsBytes s v bytes := fun k hk => (hbytes k hk).2.2
  refine ⟨fun hbound hzero => ?text, fun hout => ?outOfBounds⟩
  case text =>
    have hlen := nonZeroRun_length_le hrun fun _ => hzero
    have hscan := scanString_text hrun hbound hzero (Nat.lt_succ_of_le hlen)
    simp only [← charOfByte_eq]
    refine ecallPrints_of_output ?_
    rw [hexec, syscallPrintString, hscan, textOf_eq_flatMap hholds]
  case outOfBounds =>
    have hlen := nonZeroRun_length_le hrun fun hbound => absurd hbound (Nat.not_lt.2 hout)
    have hscan := scanString_outOfBounds hrun hout (Nat.lt_succ_of_le hlen)
    refine trapsWith_of_raise ?_
    rw [hexec, syscallPrintString, hscan]
    rfl

/-- Settles O33: the digits are those of the absolute value, which ECALL prints after the sign. -/
theorem integersAreSpelledInDecimal : Obligations.IntegersAreSpelledInDecimal := by
  intro s ha7 v
  refine ⟨spelledDigits v.toInt.natAbs, spelledDigits_ne_nil _, fun d => lt_ten_of_mem_spelledDigits,
    spelledDigits_eq_of_head_zero, foldl_spelledDigits _, ecallPrints_of_output ?_⟩
  rw [exec_ecall_printInt ha7, decimal_toInt]
  rfl

end Sys2Proof.Machine

/-! Proofs of the statements about the control transfers (46_control_transfer.md): the shared branch and the shared jump
from the instruction's own address, the conditions as arithmetic, JALR's target, and the obligations from them. -/

namespace Sys2Proof.Machine

/-- During Execute the instruction's own address is 4 below `pc` (R19, R80). -/
theorem State.ipc_of_pc_eq {s : State} {ipc : Word} (hpc : s.pc = ipc + 4) : s.ipc = ipc := by
  rw [State.ipc, hpc, BitVec.add_sub_cancel]

/-! ## Branches (R128, R131 to R136) -/

/-- Signed `>=` is the complement of signed `<` (R134). -/
theorem not_lessSigned_iff (a b : Word) : (!lessSigned a b) = true ↔ b.toInt ≤ a.toInt := by simp [lessSigned]

/-- Unsigned `>=` is the complement of unsigned `<` (R136). -/
theorem not_lessUnsigned_iff (a b : Word) : (!lessUnsigned a b) = true ↔ b.toNat ≤ a.toNat := by simp [lessUnsigned]

/-- An instruction that answers the shared branch is in its row and branches on what its Boolean decides. -/
theorem inRow_branchesOn_of_branchIf {i : Instr} {s : State} {ipc imm : Word} {c : Bool} {cond : Prop}
    (hpc : s.pc = ipc + 4) (h : exec i s = branchIf c imm s) (hcond : c = true ↔ cond) :
    inRow i i.op.row.mask i.op.row.pattern ∧ branchesOn i s ipc imm cond := by
  refine ⟨inRow_of_rowMatch (Laws.RowMatch.covers_encode i), _, h, fun _ => rfl, fun _ => rfl, ⟨rfl, rfl, rfl, rfl⟩,
    fun hc => ?taken, fun hc => ?notTaken⟩
  case taken => rw [State.setPc_pc, if_pos (hcond.2 hc), State.ipc_of_pc_eq hpc]
  case notTaken => rw [State.setPc_pc, if_neg (mt hcond.1 hc), hpc]

/-! ## Jumps (R129, R130) -/

/-- An instruction that links and sets `pc` is in its row and jumps to that target. -/
theorem inRow_jumpsTo_of_link {i : Instr} {s : State} {rd : Reg} {ipc target t : Word} (hpc : s.pc = ipc + 4)
    (h : exec i s = .next ((s.writeReg rd (s.ipc + 4)).setPc t)) (e : t = target) :
    inRow i i.op.row.mask i.op.row.pattern ∧ jumpsTo i s rd ipc target := by
  rw [State.ipc_of_pc_eq hpc] at h
  exact ⟨inRow_of_rowMatch (Laws.RowMatch.covers_encode i), _, h, fun r => State.readReg_writeReg s rd r (ipc + 4),
    fun _ => rfl, ⟨rfl, rfl, rfl, rfl⟩, e⟩

/-- Clearing bit 0 halves rounding down, then doubles (R130). -/
theorem and_clearBit0_eq_ofNat (v : Word) : v &&& 0xFFFFFFFE = BitVec.ofNat 32 (2 * (v.toNat / 2)) := by
  have hmask : (0xFFFFFFFE : Word) = BitVec.allOnes 32 <<< 1 := by decide
  rw [hmask, ← BitVec.shiftLeft_ushiftRight, shiftLeft_eq_ofNat_mul, BitVec.toNat_ushiftRight,
    Nat.shiftRight_eq_div_pow, Nat.pow_one, Nat.mul_comm]

/-- Opcode 0x67 has the one row with funct3 000 (R69). -/
theorem decodeJalr_eq_error {w : Word} (h3 : funct3Of w ≠ 0#3) : decodeJalr w = .error .functionField := by
  unfold decodeJalr
  split
  case h_1 h0 => exact absurd h0 h3
  case h_2 => rfl

/-! ## The obligations -/

/-- Settles O28: each branch is the shared branch on a Boolean that decides the rule's comparison. -/
theorem branchResults : Obligations.BranchResults := by
  intro s rs1 rs2 imm ipc hpc a b
  refine ⟨?beq, ?bne, ?blt, ?bge, ?bltu, ?bgeu⟩
  case beq => exact inRow_branchesOn_of_branchIf hpc rfl beq_iff_eq
  case bne => exact inRow_branchesOn_of_branchIf hpc rfl bne_iff_ne
  case blt => exact inRow_branchesOn_of_branchIf hpc rfl decide_eq_true_iff
  case bge => exact inRow_branchesOn_of_branchIf hpc rfl (not_lessSigned_iff a b)
  case bltu => exact inRow_branchesOn_of_branchIf hpc rfl decide_eq_true_iff
  case bgeu => exact inRow_branchesOn_of_branchIf hpc rfl (not_lessUnsigned_iff a b)

/-- Settles O29: both jumps link and set `pc` to a target of the old registers, JALR's with bit 0 cleared; and the
decoder has no row of opcode 0x67 for another funct3. -/
theorem jumpResults : Obligations.JumpResults := by
  refine ⟨fun s rd rs1 imm ipc hpc => ⟨?jal, ?jalr⟩, fun w hop h3 => ?illegal⟩
  case jal => exact inRow_jumpsTo_of_link hpc rfl (congrArg (· + imm) (State.ipc_of_pc_eq hpc))
  case jalr => exact inRow_jumpsTo_of_link hpc rfl (and_clearBit0_eq_ofNat (s.readReg rs1 + imm))
  case illegal =>
    have hdecode := decode_jalr (extractLsb'_eq_iff_fieldOf.2 hop)
    exact decodeAdmitted_of_error (hdecode.trans (decodeJalr_eq_error (mt extractLsb'_eq_iff_fieldOf.1 h3)))

end Sys2Proof.Machine

/-! Proof of the statement about LUI and AUIPC (47_upper_immediate.md): every upper immediate is encodable, and the
obligation from it. -/

namespace Sys2Proof.Machine

/-- Every 20-bit upper immediate, moved up by 12 bits, is one the U format encodes (R61). -/
theorem immOkU_shifted (imm20 : BitVec 20) : immOkU (BitVec.ofNat 32 (imm20.toNat * 2 ^ 12)) := by
  rw [immOkU, BitVec.toNat_ofNat]
  omega

/-- A well-formed instruction that answers a register write is in its row, is the one its word decodes to, and writes
that register only. -/
theorem inRow_decodes_writesOnly_of_writeReg {i : Instr} {s : State} {rd : Reg} {v w : Word} (hwf : i.wf = true)
    (hop : i.op ≠ .systemOther) (h : exec i s = .next (s.writeReg rd w)) (e : w = v) :
    inRow i i.op.row.mask i.op.row.pattern ∧ decode (encode i) = .ok i ∧ writesOnly i s rd v :=
  have ⟨hrow, hwrites⟩ := inRow_writesOnly_of_writeReg h e
  ⟨hrow, decode_encode_of_ne_systemOther hwf hop, hwrites⟩

/-- Settles O30: both write one word, LUI the shifted immediate itself and AUIPC its sum with the instruction's own
address, which is 4 below `pc`; the shifted immediate is one the U format encodes. -/
theorem upperImmediateResults : Obligations.UpperImmediateResults := by
  intro s rd imm20 ipc hpc imm
  have himm : decide (immOkU imm) = true := decide_eq_true (immOkU_shifted imm20)
  refine ⟨?lui, ?auipc⟩
  case lui => exact inRow_decodes_writesOnly_of_writeReg himm Op.noConfusion rfl rfl
  case auipc =>
    have hsum : s.ipc + imm = ipc + imm := congrArg (· + imm) (State.ipc_of_pc_eq hpc)
    exact inRow_decodes_writesOnly_of_writeReg himm Op.noConfusion rfl hsum

end Sys2Proof.Machine

/-! Proofs of the statements about exceptions (60_exceptions.md): the two faults of a fetch, the words that are Illegal
read off the opcode table, the step that fetches one, and the obligations from them. -/

namespace Sys2Proof

/-! ## The opcodes of the admitted rows (R65, R70) -/

/-- The ten opcodes of R65, as numbers. -/
def admittedOpcodes : List Nat := [0x33, 0x13, 0x03, 0x23, 0x73, 0x63, 0x67, 0x6F, 0x37, 0x17]

/-- Every admitted row fixes the whole opcode, and it is one of the ten. -/
theorem opcodeOf_admittedRow : ∀ o ∈ admittedOps,
    opcodeOf o.row.mask = BitVec.allOnes 7 ∧ (opcodeOf o.row.pattern).toNat ∈ admittedOpcodes := by decide

/-- Every one of the ten opcodes ends in 11 (R50). -/
theorem admittedOpcodes_mod_four : ∀ n ∈ admittedOpcodes, n % 4 = 3 := by decide

/-- ECALL's row is the only admitted one with opcode 0x73 (R70). -/
theorem eq_ecall_of_opcodeOf_row : ∀ o ∈ admittedOps, opcodeOf o.row.pattern = 0x73#7 → o = .ecall := by decide

section
variable {w : Word} {i : Instr}

/-- The opcode of a word as a number. -/
theorem toNat_opcodeOf (w : Word) : (opcodeOf w).toNat = w.toNat % 128 := by
  have hfield : (opcodeOf w).toNat = w.toNat / 2 ^ 0 % 2 ^ 7 := toNat_extractLsb'_eq_fieldOf w 0 7
  rwa [Nat.pow_zero, Nat.div_one] at hfield

/-- An admitted instruction's operation is listed, and its row covers the word it is decoded from. -/
theorem op_mem_and_covers_of_decodeAdmitted (h : decodeAdmitted w = some i) :
    i.op ∈ admittedOps ∧ i.op.row.covers w = true := by
  obtain ⟨hd, hadm⟩ := decodeAdmitted_eq_some_iff.1 h
  exact ⟨(op_mem_admittedOps_iff i).2 hadm, covers_of_decode hd⟩

/-- A word that is not Illegal has the opcode of its instruction's row. -/
theorem opcodeOf_of_decodeAdmitted (h : decodeAdmitted w = some i) : opcodeOf w = opcodeOf i.op.row.pattern := by
  obtain ⟨hop, hcov⟩ := op_mem_and_covers_of_decodeAdmitted h
  exact opcodeOf_of_covers hcov (opcodeOf_admittedRow _ hop).1

/-! ## Which words are Illegal (R64, R142) -/

/-- A word that no admitted row covers. -/
theorem decodeAdmitted_eq_none_of_not_covers (h : ∀ r ∈ admittedRows, r.covers w = false) : decodeAdmitted w = none := by
  refine Option.eq_none_iff_forall_ne_some.2 fun i hi => ?_
  obtain ⟨hop, hcov⟩ := op_mem_and_covers_of_decodeAdmitted hi
  exact Bool.false_ne_true ((h _ (List.mem_map_of_mem hop)).symm.trans hcov)

/-- A word with an opcode outside the ten. -/
theorem decodeAdmitted_eq_none_of_opcode (h : w.toNat % 128 ∉ admittedOpcodes) : decodeAdmitted w = none := by
  refine Option.eq_none_iff_forall_ne_some.2 fun i hi => h ?_
  obtain ⟨hop, -⟩ := op_mem_and_covers_of_decodeAdmitted hi
  rw [← toNat_opcodeOf, opcodeOf_of_decodeAdmitted hi]
  exact (opcodeOf_admittedRow _ hop).2

/-- A word whose two low bits are not 11. -/
theorem decodeAdmitted_eq_none_of_low_bits (h : w.toNat % 4 ≠ 3) : decodeAdmitted w = none := by
  refine decodeAdmitted_eq_none_of_opcode fun hmem => h ?_
  have hlow : w.toNat % 128 % 4 = 3 := admittedOpcodes_mod_four _ hmem
  omega

/-- A word of opcode 0x73 other than ECALL's. -/
theorem decodeAdmitted_eq_none_of_system (hop : w.toNat % 128 = 0x73) (hw : w ≠ 0x00000073) : decodeAdmitted w = none := by
  refine Option.eq_none_iff_forall_ne_some.2 fun i hi => hw ?_
  obtain ⟨hmem, hcov⟩ := op_mem_and_covers_of_decodeAdmitted hi
  have hopcode : opcodeOf w = 0x73#7 := BitVec.eq_of_toNat_eq ((toNat_opcodeOf w).trans hop)
  have hecall : i.op = .ecall := eq_ecall_of_opcodeOf_row _ hmem ((opcodeOf_of_decodeAdmitted hi).symm.trans hopcode)
  rw [hecall] at hcov
  exact eq_pattern_of_covers hcov rfl

/-- An Illegal word is rejected by the decoder or decodes to an instruction that is not admitted. -/
theorem decode_of_decodeAdmitted_eq_none (h : decodeAdmitted w = none) :
    (∃ e, decode w = .error e) ∨ ∃ i, decode w = .ok i ∧ i.admitted = false := by
  cases hd : decode w with
  | error e => exact .inl ⟨e, rfl⟩
  | ok i =>
    refine .inr ⟨i, rfl, Bool.eq_false_iff.2 fun hadm => ?_⟩
    rw [decodeAdmitted_eq_some_iff.2 ⟨hd, hadm⟩] at h
    cases h

end

end Sys2Proof

namespace Sys2Proof.Machine

/-! ## Steps that fault at fetch (R81, R143, R144) -/

/-- A misaligned fetch address faults whatever the bounds. -/
theorem fetchFault_of_misaligned {c : Config} {pc : Word} (h : pc.toNat % 4 ≠ 0) :
    fetchFault c pc = some (.instructionAddressMisaligned pc) :=
  if_neg (mt (pcAligned_iff pc).1 h)

/-- An aligned fetch address whose 4 bytes are not all in bounds faults. -/
theorem fetchFault_of_outOfBounds {c : Config} {pc : Word} (ha : pc.toNat % 4 = 0) (hb : ¬ accessInBounds c pc 4) :
    fetchFault c pc = some (.instructionAccessFault pc) := by
  rw [fetchFault, if_pos ((pcAligned_iff pc).2 ha), if_neg (mt (inBounds_iff_access ..).1 hb)]

/-- A step whose fetch faults traps precisely, at the fetch address and without a word. -/
theorem step_of_fetchFault {s : State} {c : Cause} (hrun : s.runnable = true) (hf : fetchFault s.cfg s.pc = some c) :
    ∃ t, step s = .next t ∧ trappedFrom s t s.pc ⟨c, s.pc, none⟩ := by
  refine ⟨_, ?_, trappedFrom_raise_enterStep s _⟩
  simp only [step, hrun, if_true, hf]
  rfl

/-! ## Steps that fetch an Illegal word (R142) -/

/-- An instruction that is not admitted raises IllegalInstruction with its own word. -/
theorem exec_of_not_admitted {i : Instr} (h : i.admitted = false) (s : State) :
    exec i s = .next (s.raise ⟨.illegalInstruction (encode i), s.ipc, some (encode i)⟩) := by
  cases i with
  | fence bits => exact exec_fence bits s
  | ebreak => exact exec_ebreak s
  | systemOther bits => exact exec_systemOther bits s
  | _ => cases h

/-- A step that fetches a word the decoder rejects raises at decode. -/
theorem step_of_decode_error {s : State} {e : Reject} (hrun : s.runnable = true) (hf : fetchFault s.cfg s.pc = none)
    (hd : decode s.fetchedWord = .error e) :
    step s = .next (s.atExecute.raise ⟨.illegalInstruction s.fetchedWord, s.pc, some s.fetchedWord⟩) := by
  simp only [step, hrun, if_true, hf, hd, raiseFetched, State.ipc_atExecute]

/-- A step that fetches an Illegal word traps precisely, with the word and the address it was fetched from. -/
theorem step_of_illegal {s : State} (hrun : s.runnable = true) (ha : s.pc.toNat % 4 = 0)
    (hb : accessInBounds s.cfg s.pc 4) (h : decodeAdmitted (s.wordAt s.pc) = none) :
    ∃ t, step s = .next t ∧
      trappedFrom s t (s.pc + 4) ⟨.illegalInstruction (s.wordAt s.pc), s.pc, some (s.wordAt s.pc)⟩ := by
  obtain ⟨e, hd⟩ | ⟨i, hd, hadm⟩ := decode_of_decodeAdmitted_eq_none h
  · exact ⟨_, step_of_decode_error hrun (fetchFault_of_inBounds ha hb) hd, trappedFrom_raise_atExecute s _⟩
  · obtain ⟨-, hword⟩ := isWordOf_of_decode hd
    have hexec := exec_of_not_admitted hadm s.atExecute
    rw [hword, State.ipc_atExecute] at hexec
    exact ⟨_, step_eq_next_of_exec hrun ha hb hd hexec, trappedFrom_forceX0 (trappedFrom_raise_atExecute s _)⟩

/-! ## The obligations -/

/-- Settles O9: the fetch is checked for alignment before bounds, and its fault is raised before `pc` is advanced. -/
theorem fetchFaultsLeavePcInPlace : Obligations.FetchFaultsLeavePcInPlace :=
  fun _ hrun => ⟨fun ha => step_of_fetchFault hrun (fetchFault_of_misaligned ha),
    fun ha hb => step_of_fetchFault hrun (fetchFault_of_outOfBounds ha hb)⟩

/-- Settles O10: an Illegal word is rejected at decode or executes as one of the three rows that raise their own word; and
a word that is not Illegal is in an admitted row, whose opcode is one of the ten. -/
theorem illegalWordsTrap : Obligations.IllegalWordsTrap :=
  ⟨fun _ => step_of_illegal, fun _ => decodeAdmitted_eq_none_of_opcode, fun _ => decodeAdmitted_eq_none_of_low_bits,
    fun _ => decodeAdmitted_eq_none_of_not_covers, fun _ => decodeAdmitted_eq_none_of_system,
    decodeAdmitted_eq_none_of_low_bits (by decide), decodeAdmitted_eq_none_of_opcode (by decide)⟩

/-- Settles O43: the table of R141, cause by cause. -/
theorem causesHaveTheirCodes : Obligations.CausesHaveTheirCodes :=
  fun _ => ⟨rfl, rfl, rfl, rfl, rfl, rfl, rfl, rfl⟩

end Sys2Proof.Machine

/-! Proofs of the statements about reset and load (70_reset_and_hazards.md): what an image reads back as once placed, when
an image is refused, the registers of a loaded state, and the obligations from them. -/

namespace Sys2Proof.Machine

/-! ## Placing an image (R164) -/

/-- An address the image does not list reads as before. -/
theorem read_placeImage_of_notMem {m : Memory} {image : Image} {a : Nat} (h : a ∉ image.map Prod.fst) :
    (placeImage m image).read a = m.read a := by
  induction image generalizing m with
  | nil => rfl
  | cons c rest ih =>
    obtain ⟨hne, hrest⟩ : a ≠ c.1 ∧ a ∉ rest.map Prod.fst := by simpa only [List.map_cons, List.mem_cons, not_or] using h
    exact (ih hrest).trans ((Memory.read_write m c.1 a c.2).trans (if_neg hne))

/-- Every byte of an image without two bytes at one address reads back. -/
theorem read_placeImage_of_mem {m : Memory} {image : Image} (hnodup : (image.map Prod.fst).Nodup) :
    ∀ c ∈ image, (placeImage m image).read c.1 = c.2 := by
  induction image generalizing m with
  | nil => exact fun c hc => absurd hc List.not_mem_nil
  | cons d rest ih =>
    obtain ⟨hd, hrest⟩ := List.nodup_cons.1 hnodup
    intro c hc
    obtain rfl | hc := List.mem_cons.1 hc
    · exact (read_placeImage_of_notMem hd).trans ((Memory.read_write m c.1 c.1 c.2).trans (if_pos rfl))
    · exact ih hrest c hc

/-! ## Refusing an image (R164) -/

/-- An image is accepted when it lies in the buffer and has no two bytes at one address. -/
theorem imageRefusal_eq_none_iff (size : Nat) (image : Image) :
    imageRefusal size image = none ↔ (∀ c ∈ image, c.1 < size) ∧ (image.map Prod.fst).Nodup := by
  have hany : image.any (fun c => decide (size ≤ c.1)) = true ↔ ¬ ∀ c ∈ image, c.1 < size := by simp
  unfold imageRefusal
  split
  case isTrue h => exact iff_of_false (Option.some_ne_none _) fun hin => hany.1 h hin.1
  case isFalse h =>
    have hin : ∀ c ∈ image, c.1 < size := not_not.1 (mt hany.2 h)
    split
    case isTrue hnodup => exact iff_of_true rfl ⟨hin, hnodup⟩
    case isFalse hdup => exact iff_of_false (Option.some_ne_none _) fun hok => hdup hok.2

/-- A `load` that is not refused leaves the loaded state. -/
theorem load_of_accepted {s : State} {image : Image} (h : imageRefusal s.cfg.memSize image = none) (entry : Word) :
    loadCommand image entry s = .ok (loadedState s.cfg image entry) ∧
      perform (.load image entry) s = .next (loadedState s.cfg image entry) := by
  have hload : loadCommand image entry s = .ok (loadedState s.cfg image entry) := by simp only [loadCommand, h]
  exact ⟨hload, by simp only [perform, hload]⟩

/-- A `load` that is refused reports the refusal and changes no state. -/
theorem load_of_refused {s : State} {image : Image} (h : imageRefusal s.cfg.memSize image ≠ none) (entry : Word) :
    (∃ r, loadCommand image entry s = .error r) ∧ perform (.load image entry) s = .next s := by
  obtain ⟨r, hr⟩ := Option.ne_none_iff_exists'.1 h
  have hload : loadCommand image entry s = .error r := by simp only [loadCommand, hr]
  exact ⟨⟨r, hload⟩, by simp only [perform, hload]⟩

/-! ## The registers after reset and after load (R163, R164) -/

/-- Every storage cell of the state after reset holds 0. -/
theorem State.resetWith_cell (c : Config) (r : Reg) : (State.resetWith c).regs[r] = 0 := by
  rw [State.resetWith_regs, Fin.getElem_fin, Vector.getElem_replicate]

/-- Every register of the state after reset reads 0. -/
theorem State.readReg_resetWith (c : Config) (r : Reg) : (State.resetWith c).readReg r = 0 := by
  rw [State.readReg, State.resetWith_cell, ite_self]

/-- In a loaded state `sp` is STACK_TOP and every other register reads 0. -/
theorem readReg_loadedState (c : Config) (image : Image) (entry : Word) (r : Reg) :
    (loadedState c image entry).readReg r = if r = 2 then BitVec.ofNat 32 c.stackTop else 0 := by
  have hregs : (loadedState c image entry).readReg r =
      ((State.resetWith c).writeReg 2 (BitVec.ofNat 32 c.stackTop)).readReg r := State.readReg_congr rfl r
  rw [hregs, State.readReg_writeReg, State.readReg_resetWith]
  by_cases hr : r = 0
  · rw [if_pos hr, if_neg (by rw [hr]; decide)]
  · rw [if_neg hr]

/-! ## The obligations -/

/-- Settles O38: an accepted image is placed over the memory of reset, where every byte is 0; and an image that breaks
either condition is not accepted. -/
theorem loadPlacesTheImageOrRefuses : Obligations.LoadPlacesTheImageOrRefuses := by
  intro s image entry
  refine ⟨fun hin hnodup => ?accepted, fun hflaw => ?refused⟩
  case accepted =>
    obtain ⟨hload, hperform⟩ := load_of_accepted ((imageRefusal_eq_none_iff ..).2 ⟨hin, hnodup⟩) entry
    exact ⟨_, hload, hperform, read_placeImage_of_mem hnodup, fun a => read_placeImage_of_notMem,
      readReg_loadedState s.cfg image entry, rfl, rfl, rfl, rfl, rfl⟩
  case refused =>
    refine load_of_refused (fun hnone => ?_) entry
    obtain ⟨hin, hnodup⟩ := (imageRefusal_eq_none_iff ..).1 hnone
    obtain ⟨c, hc, hout⟩ | hdup := hflaw
    · exact absurd (hin c hc) (Nat.not_lt.2 hout)
    · exact hdup hnodup

/-- Settles O37: reset leaves the same state from everywhere, and it is Unloaded, where neither `step` nor `run` acts. -/
theorem resetZeroesTheState : Obligations.ResetZeroesTheState := by
  intro s
  have hidle : (State.resetWith s.cfg).runnable = false := rfl
  refine ⟨State.resetWith s.cfg, rfl, State.resetWith_cell s.cfg, rfl, fun _ => rfl, rfl, rfl, rfl, rfl, fun max => ?_⟩
  obtain ⟨r, hr, hstate, hsteps, -⟩ := runCommand_of_not_runnable hidle max
  exact ⟨r, hr, hstate, hsteps⟩

end Sys2Proof.Machine

/-! Proofs of the statements about what the model adds to the rules: the word placed for the next fetch
(notes/assumptions/10.md), and the two-instruction constants of the pseudo-instructions (R75), with the obligations from
them. -/

namespace Sys2Proof

/-- The decoder reads a table word back from its own bytes. -/
theorem decode_of_decodeTableWord {nbits w : Nat} {i : Instr} (h : decodeTableWord nbits w = some i) :
    decode (tableWord nbits w) = .ok i := by
  have hbytes : decodeBytes (wordBytes (tableWord nbits w)) = decode (tableWord nbits w) :=
    congrArg decode (littleEndian_extractLsb' (tableWord nbits w))
  rw [decodeTableWord, hbytes] at h
  cases hd : decode (tableWord nbits w) with
  | ok j => rw [hd] at h; exact congrArg Except.ok (Option.some.inj h)
  | error e => rw [hd] at h; cases h

end Sys2Proof

namespace Sys2Proof.Machine

/-! ## The state a word is placed in (log 10) -/

/-- A step that fetches a word which decodes executes its instruction (R80). -/
theorem step_eq_endStep_of_decode {s : State} {i : Instr} (hrun : s.runnable = true) (hf : fetchFault s.cfg s.pc = none)
    (hd : decode s.fetchedWord = .ok i) : step s = endStep (exec i s.atExecute) := by
  simp only [step, hrun, if_true, hf, hd]

theorem State.runnable_readyToFetch (s : State) : s.readyToFetch.runnable = true := by
  unfold State.readyToFetch
  cases h : s.runnable
  · rfl
  · exact h

/-- Address 0 can be fetched from in every memory R7 allows. -/
theorem fetchFault_zero {c : Config} (hc : c.wf) : fetchFault c 0 = none := by
  obtain ⟨hsize, -⟩ := hc
  refine (fetchFault_eq_none ..).2 ⟨rfl, (inBounds_iff ..).2 fun k hk => ?_⟩
  have haddr : (0 + BitVec.ofNat 32 k : Word) = BitVec.ofNat 32 k := BitVec.zero_add _
  rw [haddr, BitVec.toNat_ofNat]
  omega

/-- A fetch from the `pc` made ready does not fault. -/
theorem State.fetchFault_readyToFetch {s : State} (hc : s.cfg.wf) : fetchFault s.cfg s.readyToFetch.pc = none := by
  by_cases hf : fetchFault s.cfg s.pc = none
  · rwa [show s.readyToFetch.pc = s.pc from if_pos hf]
  · rw [show s.readyToFetch.pc = 0 from if_neg hf]
    exact fetchFault_zero hc

/-- A state that can fetch is ready as it is. -/
theorem State.readyToFetch_of_ready {s : State} (hrun : s.runnable = true) (hf : fetchFault s.cfg s.pc = none) :
    s.readyToFetch = s := by
  simp only [State.readyToFetch, hrun, hf, if_true]

section
variable (s : State) (nbits w : Nat)

theorem State.runnable_withFetchWord : (s.withFetchWord nbits w).runnable = true := s.runnable_readyToFetch

theorem State.fetchFault_withFetchWord (hc : s.cfg.wf) :
    fetchFault (s.withFetchWord nbits w).cfg (s.withFetchWord nbits w).pc = none := State.fetchFault_readyToFetch hc

/-- The next step fetches the word placed. -/
theorem State.fetchedWord_withFetchWord : (s.withFetchWord nbits w).fetchedWord = tableWord nbits w :=
  State.wordAt_store ..

/-- Only the 4 bytes at `pc` are written. -/
theorem State.read_withFetchWord {b : Nat} (h : ¬ covers (s.withFetchWord nbits w).pc 4 b) :
    (s.withFetchWord nbits w).mem.read b = s.mem.read b :=
  read_storeBytes_of_not_covers _ _ _ _ _ h

end

/-! ## A constant from its high and low part (R75) -/

/-- The low part has the constant's low 12 bits. -/
theorem toNat_lowPart_mod (v : Word) : (lowPart v).toNat % 4096 = v.toNat % 4096 := by
  have hlow : (v.extractLsb' 0 12).toNat = v.toNat % 4096 := by
    rw [BitVec.extractLsb'_toNat, Nat.shiftRight_zero]
  have hint : (lowPart v).toInt = Int.bmod (v.toNat % 4096 : Nat) 4096 := by
    rw [← hlow]
    exact toInt_signExtend_eq_bmod _ (by omega)
  have hmod := @Int.bmod_emod (v.toNat % 4096 : Nat) 4096
  rw [← hint, BitVec.toInt_eq_toNat_cond] at hmod
  split at hmod <;> omega

/-- The low part is an immediate of ADDI. -/
theorem immOk12_lowPart (v : Word) : immOk12 (lowPart v) := toInt_signExtend_bounds (n := 11) _ (by omega)

/-- Clearing the low 12 bits divides rounding down, then multiplies. -/
theorem toNat_and_clearLow12 (v : Word) : (v &&& 0xFFFFF000).toNat = v.toNat / 4096 * 4096 := by
  have hmask : (0xFFFFF000 : Word) = BitVec.allOnes 32 <<< 12 := by decide
  have hv := v.isLt
  rw [hmask, ← BitVec.shiftLeft_ushiftRight, BitVec.toNat_shiftLeft, BitVec.toNat_ushiftRight,
    Nat.shiftRight_eq_div_pow, Nat.shiftLeft_eq]
  omega

/-- The high part is an immediate of LUI and AUIPC. -/
theorem immOkU_highPart (v : Word) : immOkU (highPart v) := by
  rw [immOkU, highPart, toNat_and_clearLow12, Nat.mul_mod_left]

/-- The difference to the low part has no low bits to clear, so both parts add up to the constant. -/
theorem highPart_add_lowPart (v : Word) : highPart v + lowPart v = v := by
  have hlow := toNat_lowPart_mod v
  have hclear : highPart v = v - lowPart v := by
    apply BitVec.eq_of_toNat_eq
    rw [highPart, toNat_and_clearLow12, BitVec.toNat_sub]
    omega
  rw [hclear, BitVec.sub_add_cancel]

/-! ## The expansions of `li` and `la` (R75) -/

/-- A constant in ADDI's range is encodable as it is. -/
theorem immOk12_ofInt {imm : Int} (h : -2048 ≤ imm ∧ imm ≤ 2047) : immOk12 (BitVec.ofInt 32 imm) := by
  have hint : (BitVec.ofInt 32 imm).toInt = imm := by
    rw [BitVec.toInt_ofInt]
    exact Int.bmod_eq_of_le (by omega) (by omega)
  rwa [immOk12, hint]

theorem expandLi_of_short {imm : Int} (h : -2048 ≤ imm ∧ imm ≤ 2047) (rd : Reg) :
    (Pseudo.li rd imm).expand = [.addi rd 0 (BitVec.ofInt 32 imm)] :=
  if_pos h

theorem expandLi_of_long {imm : Int} (h : ¬ (-2048 ≤ imm ∧ imm ≤ 2047)) (rd : Reg) :
    (Pseudo.li rd imm).expand =
      [.lui rd (highPart (BitVec.ofInt 32 imm)), .addi rd rd (lowPart (BitVec.ofInt 32 imm))] :=
  if_neg h

/-- Every instruction `li` expands to is encodable. -/
theorem expandLi_wf (rd : Reg) (imm : Int) : ∀ i ∈ (Pseudo.li rd imm).expand, i.wf = true := by
  by_cases h : -2048 ≤ imm ∧ imm ≤ 2047
  · rw [expandLi_of_short h]
    exact List.forall_mem_singleton.2 (decide_eq_true (immOk12_ofInt h))
  · rw [expandLi_of_long h]
    exact List.forall_mem_cons.2 ⟨decide_eq_true (immOkU_highPart _),
      List.forall_mem_singleton.2 (decide_eq_true (immOk12_lowPart _))⟩

/-- The instructions complete, `rd` reads `v` unless it is `x0`, and every other register reads as before. -/
def buildsIn (is : List Instr) (s : State) (rd : Reg) (v : Word) : Prop :=
  ∃ t, execAll is s = .next t ∧ ∀ r : Reg, t.readReg r = if r = 0 then 0 else if r = rd then v else s.readReg r

/-- An ADDI from `x0` builds its immediate. -/
theorem buildsIn_addi_zero (s : State) (rd : Reg) (v : Word) : buildsIn [.addi rd 0 v] s rd v := by
  refine ⟨s.writeReg rd (s.readReg 0 + v), rfl, fun r => ?_⟩
  have hsum : s.readReg 0 + v = v := (congrArg (· + v) s.readReg_zero).trans (BitVec.zero_add v)
  rw [State.readReg_writeReg, hsum]

/-- An ADDI to the register an instruction wrote builds the sum; that register is read back only if it is not `x0`. -/
theorem buildsIn_addi {i : Instr} {s : State} {rd : Reg} {a b v : Word} (h : exec i s = .next (s.writeReg rd a))
    (e : a + b = v) : buildsIn [i, .addi rd rd b] s rd v := by
  refine ⟨(s.writeReg rd a).writeReg rd ((s.writeReg rd a).readReg rd + b), ?_, fun r => ?_⟩
  · simp only [execAll, h]
    rfl
  · rw [State.readReg_writeReg]
    by_cases hr : r = 0
    · rw [if_pos hr, if_pos hr]
    · by_cases hrd : r = rd
      · subst hrd
        rw [if_neg hr, if_pos rfl, if_neg hr, if_pos rfl, State.readReg_writeReg, if_neg hr, if_pos rfl, e]
      · rw [if_neg hr, if_neg hrd, if_neg hr, if_neg hrd, State.readReg_writeReg_of_ne s a hrd]

/-- `li` builds its constant modulo 2^32. -/
theorem buildsIn_expandLi (s : State) (rd : Reg) (imm : Int) :
    buildsIn (Pseudo.li rd imm).expand s rd (BitVec.ofInt 32 imm) := by
  by_cases h : -2048 ≤ imm ∧ imm ≤ 2047
  · rw [expandLi_of_short h]
    exact buildsIn_addi_zero s rd _
  · rw [expandLi_of_long h]
    exact buildsIn_addi rfl (highPart_add_lowPart _)

/-- `la` builds the address of its first instruction plus the offset. -/
theorem buildsIn_expandLa (s : State) (rd : Reg) (offset : Word) :
    buildsIn (Pseudo.la rd offset).expand s rd (s.pc - 4 + offset) := by
  refine buildsIn_addi (a := s.ipc + highPart offset) rfl ?_
  rw [BitVec.add_assoc, highPart_add_lowPart, State.ipc]

/-! ## The obligations -/

/-- Settles O41: the state made ready can fetch, from the address the word is placed at. -/
theorem withFetchWordRunsTheWord : Obligations.WithFetchWordRunsTheWord := by
  intro s nbits w hc t
  have hrun : t.runnable = true := s.runnable_withFetchWord nbits w
  have hf : fetchFault t.cfg t.pc = none := s.fetchFault_withFetchWord nbits w hc
  have hword : t.fetchedWord = tableWord nbits w := s.fetchedWord_withFetchWord nbits w
  obtain ⟨halign, hbounds⟩ := (fetchFault_eq_none ..).1 hf
  refine ⟨hrun, (pcAligned_iff _).1 halign, (inBounds_iff_access ..).1 hbounds, hword,
    fun b => s.read_withFetchWord nbits w, fun hs ha hb => ?frame, fun i hi => ?executes⟩
  case frame =>
    have hready : s.readyToFetch = s := State.readyToFetch_of_ready hs (fetchFault_of_inBounds ha hb)
    calc t = { s.readyToFetch with mem := t.mem } := rfl
      _ = { s with mem := t.mem } := by rw [hready]
  case executes => exact step_eq_endStep_of_decode hrun hf (hword ▸ decode_of_decodeTableWord hi)

/-- Settles O42: both expansions end in an ADDI of the constant's low part, sign-extended, and the high part before it
makes up for the sign. -/
theorem loadImmediateBuildsTheConstant : Obligations.LoadImmediateBuildsTheConstant :=
  fun s rd imm offset => ⟨expandLi_wf rd imm, buildsIn_expandLi s rd imm, buildsIn_expandLa s rd offset⟩

end Sys2Proof.Machine
